-- ==== Sys2Proof/Word.lean ====
section
/-!
DEFINITION. The word types of the engine: a table entry or register, a nibble, a command word (rules R9 to R11).
All values are unsigned and bit 0 is the least significant bit (R11).
Addition of two `Byte`s is addition modulo 256 (R12).
-/

namespace Sys2Proof

/-- An 8-bit value: a table entry, a register, an operand, an output byte (R9). -/
abbrev Byte := BitVec 8

/-- A 4-bit value, 0..15: the nibble alphabet (R9). -/
abbrev Nibble := BitVec 4

/-- A 16-bit command word (R10, R61). -/
abbrev Word := BitVec 16

end Sys2Proof
end

