-- ==== Sys2Proof/Syntax.lean ====
section
/-!
DEFINITION. The command set: one constructor per row of spec/opcode_table.json, in the order of R63.
An operand has exactly the width of its field, so an instruction whose operand is outside its field cannot be written.
-/

namespace Sys2Proof

/-- The ten commands of R63. -/
inductive Instr where
  /-- INIT: initialise the state (R80). -/
  | init
  /-- ABSORB b: absorb a byte, low nibble first (R87). -/
  | absorb (b : Byte)
  /-- ABSORBN x: absorb one nibble (R86). -/
  | absorbn (x : Nibble)
  /-- ABSTOP: absorb the stop marker (R89). -/
  | abstop
  /-- SHUFFLE: shuffle on request (R98). -/
  | shuffle
  /-- DRIP: produce one output byte (R105). -/
  | drip
  /-- SQUEEZE r: produce `r` output bytes (R106). -/
  | squeeze (r : Byte)
  /-- UPDATE: one update step (R114). -/
  | update
  /-- OUTPUT: one output step, one byte (R116). -/
  | output
  /-- HFIN r: absorb the stop, absorb the byte `r`, squeeze `r` bytes (R122). -/
  | hfin (r : Byte)
deriving DecidableEq, Repr

end Sys2Proof
end

