-- ==== Sys2Proof/WellFormed.lean ====
section
/-!
DEFINITION. Which command words are legal, written from R65's list of the illegal ones.
The decoder (Sys2Proof/Decode.lean) is written from R64's procedure instead; that the two agree is a statement.
An `Instr` needs no check of its own: its operands have the width of their fields (Sys2Proof/Syntax.lean).
-/

namespace Sys2Proof

/-- The two fields of a command word (R61). -/
structure Fields where
  /-- `cmd[15:8]` -/
  op : Byte
  /-- `cmd[7:0]` -/
  imm8 : Byte
deriving DecidableEq, Repr

/-- The fields of a command word. -/
def Fields.ofWord (cmd : Word) : Fields :=
  { op := cmd.extractLsb' 8 8, imm8 := cmd.extractLsb' 0 8 }

/-- The opcodes of the format Z commands: INIT, ABSTOP, SHUFFLE, DRIP, UPDATE, OUTPUT (R63). -/
def Fields.formatZ : List Byte := [0x01#8, 0x04#8, 0x05#8, 0x06#8, 0x08#8, 0x09#8]

/-- R65: the opcode 0x00 and the opcodes 0x0B..0xFF are illegal. -/
def Fields.opcodeAssigned (f : Fields) : Bool :=
  decide (0x01#8 ≤ f.op) && decide (f.op ≤ 0x0A#8)

/-- R65: a format Z command with a nonzero operand is illegal. -/
def Fields.noStrayOperand (f : Fields) : Bool :=
  !formatZ.contains f.op || f.imm8 == 0x00#8

/-- R65: an ABSORBN word with `imm8[7:4]` nonzero is illegal. -/
def Fields.nibbleInAlphabet (f : Fields) : Bool :=
  f.op != 0x03#8 || decide (f.imm8 ≤ 0x0F#8)

/-- The word with these fields is one of the 790 legal ones (R65). -/
def Fields.wellFormed (f : Fields) : Bool :=
  f.opcodeAssigned && f.noStrayOperand && f.nibbleInAlphabet

end Sys2Proof
end

