-- ==== Sys2Proof/Decode.lean ====
section
/-!
DEFINITION. The decoder, total on 16-bit words (R64), and the encoder written from the same table (R61 to R63).
A command word has no byte order (R44), so the decoder reads the word itself.
-/

namespace Sys2Proof

/-- Why the decoder refuses a word: which of the tests of R64 it fails. -/
inductive Illegal where
  /-- R64 step 2: `op` is not one of 0x01..0x0A. -/
  | unknownOpcode
  /-- R64 step 3: a format Z command with `imm8` nonzero. -/
  | strayOperand
  /-- R64 step 4: a format N command with `imm8[7:4]` nonzero. -/
  | nibbleOutOfRange
deriving DecidableEq, Repr

/-- What the decoder makes of a word. -/
inductive Decoded where
  | ok (i : Instr)
  | illegal (why : Illegal)
deriving DecidableEq, Repr

/-- The instruction, where there is one. -/
def Decoded.instr? : Decoded → Option Instr
  | .ok i => some i
  | .illegal _ => none

/-- Format Z (R61): `imm8` must be zero. -/
def decodeZ (i : Instr) (imm8 : Byte) : Decoded :=
  if imm8 = 0x00#8 then .ok i else .illegal .strayOperand

/-- Format B (R61): any `imm8`. -/
def decodeB (i : Byte → Instr) (imm8 : Byte) : Decoded :=
  .ok (i imm8)

/-- Format N (R61): `imm8[7:4]` must be zero; the nibble is `imm8[3:0]`. -/
def decodeN (i : Nibble → Instr) (imm8 : Byte) : Decoded :=
  if imm8.extractLsb' 4 4 = 0x0#4 then .ok (i (imm8.extractLsb' 0 4)) else .illegal .nibbleOutOfRange

/-- The opcode map of R63, and R64 step 2 where it has no row. -/
def decodeFields (op imm8 : Byte) : Decoded :=
  if op = 0x01#8 then decodeZ .init imm8
  else if op = 0x02#8 then decodeB .absorb imm8
  else if op = 0x03#8 then decodeN .absorbn imm8
  else if op = 0x04#8 then decodeZ .abstop imm8
  else if op = 0x05#8 then decodeZ .shuffle imm8
  else if op = 0x06#8 then decodeZ .drip imm8
  else if op = 0x07#8 then decodeB .squeeze imm8
  else if op = 0x08#8 then decodeZ .update imm8
  else if op = 0x09#8 then decodeZ .output imm8
  else if op = 0x0A#8 then decodeB .hfin imm8
  else .illegal .unknownOpcode

/-- R64: `op <- cmd[15:8]`, `imm8 <- cmd[7:0]`, then the row of `op` with its format's test. -/
def decode (cmd : Word) : Decoded :=
  decodeFields (cmd.extractLsb' 8 8) (cmd.extractLsb' 0 8)

/-- The opcode of an instruction (R63). -/
def opcode : Instr → Byte
  | .init => 0x01#8
  | .absorb _ => 0x02#8
  | .absorbn _ => 0x03#8
  | .abstop => 0x04#8
  | .shuffle => 0x05#8
  | .drip => 0x06#8
  | .squeeze _ => 0x07#8
  | .update => 0x08#8
  | .output => 0x09#8
  | .hfin _ => 0x0A#8

/-- The operand field of an instruction (R61, R62): zero where it has no operand, never sign-extended. -/
def operand : Instr → Byte
  | .init | .abstop | .shuffle | .drip | .update | .output => 0x00#8
  | .absorb b => b
  | .absorbn x => x.setWidth 8
  | .squeeze r => r
  | .hfin r => r

/-- The command word of an instruction: `op` in the more significant byte, `imm8` in the other (R61). -/
def encode (i : Instr) : Word :=
  opcode i ++ operand i

/-- The bits of a row that select it: the column `mask` of R63. -/
def rowMask : Instr → Word
  | .init | .abstop | .shuffle | .drip | .update | .output => 0xFFFF#16
  | .absorb _ | .squeeze _ | .hfin _ => 0xFF00#16
  | .absorbn _ => 0xFFF0#16

/-- The value those bits have: the column `match` of R63. -/
def rowMatch : Instr → Word
  | .init => 0x0100#16
  | .absorb _ => 0x0200#16
  | .absorbn _ => 0x0300#16
  | .abstop => 0x0400#16
  | .shuffle => 0x0500#16
  | .drip => 0x0600#16
  | .squeeze _ => 0x0700#16
  | .update => 0x0800#16
  | .output => 0x0900#16
  | .hfin _ => 0x0A00#16

/-- The instruction the decoder reads from a command word given as the number `w` of its low `nbits` bits, bit 0 the least
significant bit, the bits above `nbits` zero; none where the decoder refuses the word or it would be longer than the one
16-bit form there is (R67). -/
def decodeTableWord (nbits w : Nat) : Option Instr :=
  if nbits ≤ 16 then (decode (BitVec.ofNat 16 (w % 2 ^ nbits))).instr? else none

end Sys2Proof
end

