-- ==== Sys2Proof/Machine/Operands.lean ====
section
/-!
DEFINITION. The operand forms of the commands (R61, R62) and the bit fields taken from an operand (R11, R118 e).
An operand is unsigned and is never sign-extended, scaled or shifted (R62).
-/

namespace Sys2Proof.Machine

/-- `b[3:0]` (R11). -/
def lowNibble (b : Byte) : Nibble := b.extractLsb' 0 4

/-- `b[7:4]` (R11). -/
def highNibble (b : Byte) : Nibble := b.extractLsb' 4 4

/-- The nibbles of a byte in the order they are absorbed: low before high (R42, R87). -/
def nibblesOf (b : Byte) : List Nibble := [lowNibble b, highNibble b]

/-- The count of SQUEEZE and HFIN: the operand as an unsigned integer 0..255 (R62). -/
def countOf (r : Byte) : Nat := r.toNat

/-- The index `128 + x` of the nibble window, 128..143 (R47, R118 b). -/
def windowIndex (base : Byte) (x : Nibble) : Byte := base + x.setWidth 8

end Sys2Proof.Machine
end

