-- ==== Sys2Proof/Config.lean ====
section
/-!
DEFINITION. The constants the spec fixes (R9, R10); none of them is an argument of the model.
The two open parameters `P_HANDSHAKE` and `P_LATENCY` (R10, R60, R161) have no definition here, since no rule reads them
(log entries 8 and 9).
No value of this machine is left undefined by the spec, so there is no free value either.
-/

namespace Sys2Proof

/-- N, the number of entries of the table (R9). -/
def Config.tableSize : Nat := 256

/-- The number of updates of one whip inside a shuffle: 2N (R9, R97). -/
def Config.whipLength : Nat := 512

/-- The number of pairs one crush compares: N/2 (R9, R96). -/
def Config.crushPairs : Nat := 128

/-- The increment of `w` at the end of a whip (R9, R95). -/
def Config.whipStep : Byte := 2#8

/-- The absorption capacity N/2: `a` at this value makes the next absorption shuffle first (R9, R85). -/
def Config.capacity : Byte := 128#8

/-- The base N/2 of the nibble window `S[128 + x]` (R9, R85). -/
def Config.nibbleBase : Byte := 128#8

/-- The initial value of `w` (R9, R31). -/
def Config.initialW : Byte := 1#8

end Sys2Proof
end

