-- ==== Sys2Proof/Machine/State.lean ====
section
/-!
DEFINITION. The state of the machine: the engine (exactly the seven items of R20) and the contents of its channels (R60).
-/

namespace Sys2Proof.Machine

/-- The table `S` as memory (R21, R40): the (address, byte) pairs of the locations that differ from their reset contents
`S[v] = v` (R31), addresses strictly rising. The canonical form is `Table.wf` (Ops.lean; log entry 2). -/
abbrev Table := List Host.Cell

/-- The permutation state, "the sole entity": the whole architectural state of the engine (R20). -/
structure Engine where
  /-- The permutation table, 256 entries (R21). -/
  S : Table
  /-- Stepping index, advanced by `w` (R23). -/
  i : Byte
  /-- Data-dependent index (R23). -/
  j : Byte
  /-- Third feedback register (R23). -/
  k : Byte
  /-- Last output byte (R23). -/
  z : Byte
  /-- Step of `i`, always odd (R24). -/
  w : Byte
  /-- Absorptions since the last shuffle, 0..128 (R25). -/
  a : Byte
deriving DecidableEq, Repr

/-- The status of a response (R70). -/
inductive Status where
  /-- Code 0. -/
  | ok
  /-- Code 1. -/
  | illegal
deriving DecidableEq, Repr

/-- The machine: the engine, its three channels and its reset input. Only `engine` is architectural state (R20, R30); the
other fields are what stands on the engine's interface (R60; log entry 1). -/
structure State where
  /-- The architectural state (R20). -/
  engine : Engine
  /-- The command channel: words the host has sent and the engine has not yet accepted, oldest first (R60). -/
  commandIn : List Word
  /-- The status channel: codes sent and not yet taken by the host, oldest first (R60, R70). -/
  statusOut : List Status
  /-- The data channel: bytes sent and not yet taken by the host, oldest first (R60, R70). -/
  dataOut : List Byte
  /-- The reset input: asserted and not yet served (R60, R151). -/
  resetIn : Bool
deriving DecidableEq, Repr

/-- Why a step stops the machine. There is no such reason: the one fault of the spec, IllegalCommand, is a response after
which the engine goes on (R130 to R132), and no table access is out of range (R41). Safe: nothing raises it. -/
inductive Fault where
deriving DecidableEq, Repr

/-- Why a step has no meaning. -/
inductive Refusal where
  /-- Raised by an arm of `exec` that has no meaning yet; no arm is left so. Safe: the run stops. -/
  | notModelled (mnemonic : String)
  /-- Raised by every command but INIT in a state where the table is no permutation (or not in its canonical form), `w` is
  even or `a` exceeds 128: such a state is unreachable and has no meaning (R22, R24, R25; 93_implementation_defined.md U8;
  log entry 6). Safe: the run stops. -/
  | outsideInvariants
deriving DecidableEq, Repr

/-- The identity table `S[v] = v`: nothing differs from it (R31). -/
def Table.identity : Table := []

/-- The engine after reset (R31, R150). -/
def Engine.reset : Engine :=
  { S := Table.identity, i := 0#8, j := 0#8, k := 0#8, z := 0#8, w := Config.initialW, a := 0#8 }

/-- The machine after reset: the engine in its initial state, idle, no command in progress and no response pending (R150). -/
def State.reset : State :=
  { engine := Engine.reset, commandIn := [], statusOut := [], dataOut := [], resetIn := false }

end Sys2Proof.Machine
end

