-- ==== Sys2Proof/Machine/Ops.lean ====
section
/-!
DEFINITION. The named operations over the table, the registers and the channels.
Every read and write of a register, of the table and of a channel goes through one of them.
-/

namespace Sys2Proof.Machine

/-! ### The table as memory (R40, R41) -/

/-- What an unlisted location reads as: its reset contents `S[v] = v` (R31). -/
def Table.unlisted (n : Nat) : Byte := BitVec.ofNat 8 n

/-- The byte at location `n`. -/
def Table.lookup : Table → Nat → Byte
  | [], n => Table.unlisted n
  | (m, u) :: rest, n => if n = m then u else Table.lookup rest n

/-- `v` put at location `n`, in the canonical form: addresses rising, nothing listed that reads so unlisted. -/
def Table.store : Table → Nat → Byte → Table
  | [], n, v => if v = Table.unlisted n then [] else [(n, v)]
  | (m, u) :: rest, n, v =>
    if m < n then (m, u) :: Table.store rest n v
    else if m = n then (if v = Table.unlisted n then rest else (n, v) :: rest)
    else if v = Table.unlisted n then (m, u) :: rest
    else (n, v) :: (m, u) :: rest

/-- `MemRead(p, 1)`: every index is one byte, so it is reduced modulo 256 and in range (R41, R45). -/
def Table.read (t : Table) (p : Byte) : Byte := Table.lookup t p.toNat

/-- `MemWrite(p, 1, v)` (R41). -/
def Table.write (t : Table) (p v : Byte) : Table := Table.store t p.toNat v

/-- `Swap(p, q)`: `t <- S[p]; S[p] <- S[q]; S[q] <- t` (R13). -/
def Table.swap (t : Table) (p q : Byte) : Table :=
  Table.write (Table.write t p (Table.read t q)) q (Table.read t p)

/-- The canonical form: addresses strictly rising and below 256 (R40), no entry equal to what it reads as unlisted. -/
def Table.wf (t : Table) : Bool :=
  decide (t.Pairwise fun c d => c.1 < d.1) &&
    t.all fun c => decide (c.1 < Config.tableSize) && c.2 != Table.unlisted c.1

/-- The table is a permutation of 0..255 (R22): outside the listed locations it is the identity, so it is one exactly when
the listed bytes are a rearrangement of the listed addresses. `Table.isPermutation_iff` (Laws) says it in R22's words. -/
def Table.isPermutation (t : Table) : Bool :=
  List.isPerm (t.map fun c => c.2.toNat) (t.map fun c => c.1)

/-! ### The registers (R23 to R25) -/

/-- `S <- t`: the whole table, by initialisation only (R80). -/
def Engine.setS (e : Engine) (t : Table) : Engine := { e with S := t }

/-- `i <- v` (R13). -/
def Engine.setI (e : Engine) (v : Byte) : Engine := { e with i := v }

/-- `j <- v` (R13). -/
def Engine.setJ (e : Engine) (v : Byte) : Engine := { e with j := v }

/-- `k <- v` (R13). -/
def Engine.setK (e : Engine) (v : Byte) : Engine := { e with k := v }

/-- `z <- v` (R13). -/
def Engine.setZ (e : Engine) (v : Byte) : Engine := { e with z := v }

/-- `w <- v` (R13). -/
def Engine.setW (e : Engine) (v : Byte) : Engine := { e with w := v }

/-- `a <- v` (R13). -/
def Engine.setA (e : Engine) (v : Byte) : Engine := { e with a := v }

/-- `S[p]` (R13). -/
def Engine.read (e : Engine) (p : Byte) : Byte := Table.read e.S p

/-- `Swap(p, q)` on the engine's table; the only write to it after initialisation (R13, R22, R119). -/
def Engine.swap (e : Engine) (p q : Byte) : Engine := e.setS (Table.swap e.S p q)

/-- The invariants of the architectural state: the table is a permutation (R22), `w` is odd (R24), `a` is in 0..128 (R25). A
state without them has no meaning (93_implementation_defined.md U8). -/
def Engine.valid (e : Engine) : Bool :=
  Table.wf e.S && Table.isPermutation e.S && e.w.getLsbD 0 && decide (e.a ≤ Config.capacity)

/-! ### The channels (R60, R70) -/

/-- The 2-bit code of a status; codes 2 and 3 are never produced (R70). -/
def Status.code : Status → BitVec 2
  | .ok => 0#2
  | .illegal => 1#2

/-- The engine replaced by `e`; the channels stay. -/
def State.setEngine (s : State) (e : Engine) : State := { s with engine := e }

/-- The command channel replaced. -/
def State.setCommandIn (s : State) (c : List Word) : State := { s with commandIn := c }

/-- The reset input replaced. -/
def State.setResetIn (s : State) (r : Bool) : State := { s with resetIn := r }

/-- One response: one status code on the status channel, the data bytes on the data channel, each after what was sent before
(R49, R70). -/
def State.respond (s : State) (st : Status) (data : List Byte) : State :=
  { s with statusOut := s.statusOut ++ [st], dataOut := s.dataOut ++ data }

/-- A legal command ends: the engine is `r.1`, the response is OK with the bytes `r.2` it emitted, in that order (R14, R70). -/
def State.complete (s : State) (r : Engine × List Byte) : State :=
  (s.setEngine r.1).respond .ok r.2

/-- A legal command whose rule takes the engine to `f`'s engine and emits `f`'s bytes. Commands are atomic (R46) and cannot
fail in a valid state (R130); outside the invariants there is no meaning (93_implementation_defined.md U8). -/
def State.perform (s : State) (f : Engine → Engine × List Byte) : Host.Outcome State Fault Refusal :=
  if s.engine.valid then .next (s.complete (f s.engine)) else .refused .outsideInvariants

/-! ### The one exception, reset, and accepting a command -/

/-- `raise IllegalCommand(cmd)`: the response is (ILLEGAL, no data) and no architectural state changes (R14, R131). This is
the machine's whole exception entry (R137); nothing is saved, so there is no return from it (R132, R138). -/
def State.raiseIllegal (s : State) : State := s.respond .illegal []

/-- The reset event: every item of the engine takes its reset value and nothing else happens, no response (R150, R151). The
request is served. -/
def State.takeReset (s : State) : State := (s.setEngine Engine.reset).setResetIn false

/-- The engine accepts the oldest word of the command channel, which is thereby consumed (R40, R49, R60). -/
def State.accept (s : State) : Option (Word × State) :=
  match s.commandIn with
  | [] => none
  | cmd :: rest => some (cmd, s.setCommandIn rest)

/-- The machine with `cmd` as the word the engine accepts next, and no reset before it. -/
def State.offer (s : State) (cmd : Word) : State :=
  (s.setCommandIn (cmd :: s.commandIn)).setResetIn false

end Sys2Proof.Machine
end

