-- ==== Sys2Proof/Machine/Flags.lean ====
section
/-!
DEFINITION. The engine has no flags and no condition codes (R27). What it tests are these three conditions, evaluated at the
moment of use and not stored (R27, R118 d).
-/

namespace Sys2Proof.Machine

/-- `a = 128`: the next absorption shuffles first (R27, R85, R89). -/
def Engine.saturated (e : Engine) : Bool := e.a == Config.capacity

/-- `a > 0`: an extraction shuffles first (R27, R105, R106). Unsigned (R12). -/
def Engine.unflushed (e : Engine) : Bool := decide (0#8 < e.a)

/-- `S[v] > S[255 - v]`, an unsigned comparison of two bytes (R27, R96). -/
def Engine.pairInverted (e : Engine) (v : Byte) : Bool := decide (e.read (255#8 - v) < e.read v)

end Sys2Proof.Machine
end

