-- ==== Sys2Proof/Machine/Primitives.lean ====
section
/-!
DEFINITION. The two primitives, Update and Output, and their commands (spec/44_primitives.md).
-/

namespace Sys2Proof.Machine

/-- Update (R113): the assignments run one after the other, each seeing what the earlier ones wrote; the swap comes last. -/
def Engine.update (e : Engine) : Engine :=
  let e := e.setI (e.i + e.w)
  let t1 := e.read e.i
  let t2 := e.read (e.j + t1)
  let e := e.setJ (e.k + t2)
  let t3 := e.read e.j
  let e := e.setK (e.i + e.k + t3)
  e.swap e.i e.j

/-- Output (R115): three indirect reads; writes `z` only. The byte returned is the new `z`. -/
def Engine.output (e : Engine) : Engine :=
  let u1 := e.read (e.z + e.k)
  let u2 := e.read (e.i + u1)
  e.setZ (e.read (e.j + u2))

/-- UPDATE (R114): one update whatever `a` is, no data. -/
def execUpdate (s : State) : Host.Outcome State Fault Refusal :=
  s.perform fun e => (e.update, [])

/-- OUTPUT (R116): one output whatever `a` is; emits the new `z`. -/
def execOutput (s : State) : Host.Outcome State Fault Refusal :=
  s.perform fun e => (e.output, [e.output.z])

end Sys2Proof.Machine
end

