-- ==== Sys2Proof/Machine/Shuffle.lean ====
section
/-!
DEFINITION. Whip, Crush, Shuffle and the command SHUFFLE (spec/42_shuffle.md).
-/

namespace Sys2Proof.Machine

/-- `repeat n times: Update()` (R13, R95). -/
def Engine.updates : Nat → Engine → Engine
  | 0, e => e
  | n + 1, e => Engine.updates n e.update

/-- Whip(r) (R95): `r` updates with the entry value of `w`, then `w <- w + 2` modulo 256. -/
def Engine.whip (e : Engine) (r : Nat) : Engine :=
  let e := e.updates r
  e.setW (e.w + Config.whipStep)

/-- One comparison of Crush (R96). -/
def Engine.crushPair (e : Engine) (v : Byte) : Engine :=
  if e.pairInverted v then e.swap v (255#8 - v) else e

/-- Crush (R96): `v` upward from 0 to 127. -/
def Engine.crush (e : Engine) : Engine :=
  (List.range Config.crushPairs).foldl (fun e v => e.crushPair (BitVec.ofNat 8 v)) e

/-- Shuffle (R97). -/
def Engine.shuffle (e : Engine) : Engine :=
  let e := e.whip Config.whipLength
  let e := e.crush
  let e := e.whip Config.whipLength
  let e := e.crush
  let e := e.whip Config.whipLength
  e.setA 0#8

/-- SHUFFLE (R98): unconditionally, whatever `a` is; no data. -/
def execShuffle (s : State) : Host.Outcome State Fault Refusal :=
  s.perform fun e => (e.shuffle, [])

end Sys2Proof.Machine
end

