-- ==== Sys2Proof/Machine/Absorb.lean ====
section
/-!
DEFINITION. Absorption: ABSORB, ABSORBN, ABSTOP (spec/41_absorb.md).
-/

namespace Sys2Proof.Machine

/-- The test every absorption begins with: `if a = 128: Shuffle()` (R85, R89, R99). -/
def Engine.shuffleIfSaturated (e : Engine) : Engine :=
  if e.saturated then e.shuffle else e

/-- AbsorbNibble(x) (R85): the test, then the swap of `S[a]` with `S[128 + x]`, then the increment. -/
def Engine.absorbNibble (e : Engine) (x : Nibble) : Engine :=
  let e := e.shuffleIfSaturated
  let e := e.swap e.a (windowIndex Config.nibbleBase x)
  e.setA (e.a + 1#8)

/-- AbsorbByte(b) (R87): low nibble, then high nibble. -/
def Engine.absorbByte (e : Engine) (b : Byte) : Engine :=
  (nibblesOf b).foldl Engine.absorbNibble e

/-- Absorbing a byte sequence, first byte first (R88). -/
def Engine.absorbBytes (e : Engine) (m : List Byte) : Engine :=
  m.foldl Engine.absorbByte e

/-- AbsorbStop() (R89): the test, then the increment; `S` is not touched. -/
def Engine.absorbStop (e : Engine) : Engine :=
  let e := e.shuffleIfSaturated
  e.setA (e.a + 1#8)

/-- ABSORB b (R87): no data. -/
def execAbsorb (b : Byte) (s : State) : Host.Outcome State Fault Refusal :=
  s.perform fun e => (e.absorbByte b, [])

/-- ABSORBN x (R86): no data. -/
def execAbsorbn (x : Nibble) (s : State) : Host.Outcome State Fault Refusal :=
  s.perform fun e => (e.absorbNibble x, [])

/-- ABSTOP (R89): no data. -/
def execAbstop (s : State) : Host.Outcome State Fault Refusal :=
  s.perform fun e => (e.absorbStop, [])

end Sys2Proof.Machine
end

