-- ==== Sys2Proof/Machine/Extract.lean ====
section
/-!
DEFINITION. Extraction: DRIP and SQUEEZE (spec/43_extract.md).
-/

namespace Sys2Proof.Machine

/-- The test every extraction begins with: `if a > 0: Shuffle()` (R99, R105, R106). -/
def Engine.shuffleIfUnflushed (e : Engine) : Engine :=
  if e.unflushed then e.shuffle else e

/-- `repeat r times: Update(); emit(Output())`: the engine afterwards and the bytes in the order emitted (R106, R43). -/
def Engine.emitBytes : Nat → Engine → Engine × List Byte
  | 0, e => (e, [])
  | n + 1, e =>
    let e := e.update.output
    let rest := Engine.emitBytes n e
    (rest.1, e.z :: rest.2)

/-- Drip() (R105): the test, one update, one output; the byte is the new `z`. -/
def Engine.drip (e : Engine) : Engine :=
  e.shuffleIfUnflushed.update.output

/-- Squeeze(r) (R106): the test once, before the first byte and also when `r = 0`, then `r` update-and-output pairs. -/
def Engine.squeeze (e : Engine) (r : Nat) : Engine × List Byte :=
  Engine.emitBytes r e.shuffleIfUnflushed

/-- DRIP (R105): emits one byte. -/
def execDrip (s : State) : Host.Outcome State Fault Refusal :=
  s.perform fun e => (e.drip, [e.drip.z])

/-- SQUEEZE r (R106): emits exactly `r` bytes. -/
def execSqueeze (r : Byte) (s : State) : Host.Outcome State Fault Refusal :=
  s.perform fun e => e.squeeze (countOf r)

end Sys2Proof.Machine
end

