-- ==== Sys2Proof/Machine/Init.lean ====
section
/-!
DEFINITION. State initialisation: INIT (spec/40_init.md).
-/

namespace Sys2Proof.Machine

/-- INIT's pseudocode (R80): `S[v] <- v` for every `v`, then the six registers. It reads no state. -/
def Engine.initialise (e : Engine) : Engine :=
  ((((((e.setS Table.identity).setI 0#8).setJ 0#8).setK 0#8).setZ 0#8).setA 0#8).setW Config.initialW

/-- INIT (R80): from any state, no data. It reads no state, so it has this effect outside the invariants too (log entry 6). -/
def execInit (s : State) : Host.Outcome State Fault Refusal :=
  .next (s.complete (s.engine.initialise, []))

end Sys2Proof.Machine
end

