-- ==== Sys2Proof/Machine/Hash.lean ====
section
/-!
DEFINITION. The hash construction: HFIN and the function Hash (spec/45_hash.md).
-/

namespace Sys2Proof.Machine

/-- HFIN's pseudocode (R122): the stop, the byte `r`, then `r` bytes squeezed; one operand for both uses. -/
def Engine.hashTail (e : Engine) (r : Byte) : Engine × List Byte :=
  (e.absorbStop.absorbByte r).squeeze (countOf r)

/-- Hash(M, r) run on an engine (R121): INIT, the message bytes in order, then the tail. -/
def Engine.hash (e : Engine) (m : List Byte) (r : Byte) : Engine × List Byte :=
  (e.initialise.absorbBytes m).hashTail r

/-- HFIN r (R122): emits exactly `r` bytes. -/
def execHfin (r : Byte) (s : State) : Host.Outcome State Fault Refusal :=
  s.perform fun e => e.hashTail r

end Sys2Proof.Machine
end

