-- ==== Sys2Proof/Machine/Dispatch.lean ====
section
/-!
DEFINITION. The dispatch of a decoded command to its meaning, one arm per row of R63.
-/

namespace Sys2Proof.Machine

def exec (i : Instr) (s : State) : Host.Outcome State Fault Refusal :=
  match i with
  | .init => Sys2Proof.Machine.execInit s
  | .absorb b => Sys2Proof.Machine.execAbsorb b s
  | .absorbn x => Sys2Proof.Machine.execAbsorbn x s
  | .abstop => Sys2Proof.Machine.execAbstop s
  | .shuffle => Sys2Proof.Machine.execShuffle s
  | .drip => Sys2Proof.Machine.execDrip s
  | .squeeze r => Sys2Proof.Machine.execSqueeze r s
  | .update => Sys2Proof.Machine.execUpdate s
  | .output => Sys2Proof.Machine.execOutput s
  | .hfin r => Sys2Proof.Machine.execHfin r s

end Sys2Proof.Machine
end

