-- ==== Sys2Proof/Machine/Run.lean ====
section
/-!
DEFINITION. What the machine does in one step: serve the reset input, or else accept one command word, decode it and run it to
completion (R3, R46, R49, R64, R151).
-/

namespace Sys2Proof.Machine

/-- What the engine does with a command word it has accepted (R64): decoding comes before anything else, an illegal word gets
the response of R131 and changes nothing, a legal one is executed whole. -/
def runWord (cmd : Word) (s : State) : Host.Outcome State Fault Refusal :=
  match decode cmd with
  | .illegal _ => .next s.raiseIllegal
  | .ok i => exec i s

/-- Reset has priority over everything (R136, R151; log entry 5); with no reset asserted the oldest command is accepted; with
nothing sent the engine is idle and nothing changes (R150; log entry 4). -/
def State.advance (s : State) : Host.Outcome State Fault Refusal :=
  if s.resetIn then .next s.takeReset
  else
    match s.accept with
    | none => .next s
    | some (cmd, s) => runWord cmd s

end Sys2Proof.Machine
end

