-- ==== Sys2Proof/Machine/Step.lean ====
section
/-!
DEFINITION. The step of the machine, and the placing of one word as its next command.
-/

namespace Sys2Proof.Machine

/-- One step (R3, R46, R49, R64, R151). -/
def step (s : State) : Host.Outcome State Fault Refusal := s.advance

/-- `s` with the command word that `w` numbers as the next one the engine accepts (log entry 11). -/
def State.withFetchWord (s : State) (nbits w : Nat) : State :=
  s.offer (BitVec.ofNat 16 (w % 2 ^ nbits))

end Sys2Proof.Machine
end

