-- ==== Sys2Proof/Machine/Assembler.lean ====
section
/-!
DEFINITION. The assembler's view of the command set: the one-command lines and the pseudo-instructions (R71 to R74). It refuses
an operand outside a command's range and never truncates one (R71, R124). It forms command words and is no part of the engine.
-/

namespace Sys2Proof.Machine

/-- Why the assembler refuses a line. -/
inductive AsmError where
  /-- The line is none of the forms of R71 to R74. -/
  | badLine
  /-- An operand outside the command's range, or one on a format Z command, or a missing one (R71). -/
  | badOperand
deriving DecidableEq, Repr

/-- One source line, its numbers read but not yet checked (R71 to R74). -/
inductive AsmLine where
  /-- `.word n`: a raw word. -/
  | word (n : Nat)
  /-- `MNEMONIC` or `MNEMONIC operand`, the mnemonic given as the opcode it names. -/
  | command (op : Byte) (operand : Option Nat)
  /-- `ABSORBS b0, b1, ..` -/
  | absorbs (bytes : List Nat)
  /-- `SQUEEZEL n` -/
  | squeezel (n : Nat)
  /-- `HASH [b0, ..], r` -/
  | hash (message : List Nat) (r : Nat)
deriving DecidableEq, Repr

/-! ### From a line to command words -/

/-- A byte operand: 0..255, refused outside (R71). -/
def asmByte (n : Nat) : Except AsmError Byte :=
  if n < 256 then .ok (BitVec.ofNat 8 n) else .error .badOperand

/-- The operand as the field `imm8` of the command: absent on format Z, a byte on format B, a nibble on format N (R61, R71).
An opcode that is no row of R63 has no mnemonic, so it is refused. -/
def asmOperand (op : Byte) (operand : Option Nat) : Except AsmError Byte :=
  if op = 0x02#8 ∨ op = 0x07#8 ∨ op = 0x0A#8 then
    match operand with
    | some n => asmByte n
    | none => .error .badOperand
  else if op = 0x03#8 then
    match operand with
    | some n => if n < 16 then asmByte n else .error .badOperand
    | none => .error .badOperand
  else if Fields.formatZ.contains op then
    match operand with
    | some _ => .error .badOperand
    | none => .ok 0x00#8
  else .error .badLine

/-- The bytes of a message, each in range (R72). -/
def asmBytes : List Nat → Except AsmError (List Byte)
  | [] => .ok []
  | n :: rest =>
    match asmByte n, asmBytes rest with
    | .ok b, .ok bs => .ok (b :: bs)
    | _, _ => .error .badOperand

/-- `ABSORBS b0, .., bn-1`: one ABSORB per byte, in order; nothing for no bytes (R72). -/
def absorbsWords (m : List Byte) : List Word := m.map fun b => encode (.absorb b)

/-- `SQUEEZEL n`: `n div 255` times SQUEEZE 255, then SQUEEZE (n mod 255) if that is positive; SQUEEZE 0 for `n = 0` (R73). -/
def squeezelWords (n : Nat) : List Word :=
  if n = 0 then [encode (.squeeze 0#8)]
  else List.replicate (n / 255) (encode (.squeeze 255#8)) ++
    (if n % 255 = 0 then [] else [encode (.squeeze (BitVec.ofNat 8 (n % 255)))])

/-- `HASH M, r`: INIT, one ABSORB per message byte in order, HFIN r (R74). -/
def hashWords (m : List Byte) (r : Byte) : List Word :=
  encode .init :: (absorbsWords m ++ [encode (.hfin r)])

/-- The words a line assembles to, or a refusal (R71 to R74). -/
def assemble (l : AsmLine) : Except AsmError (List Word) :=
  match l with
  | .word n => if n < 65536 then .ok [BitVec.ofNat 16 n] else .error .badOperand
  | .command op operand =>
    match asmOperand op operand with
    | .ok imm8 => .ok [op ++ imm8]
    | .error e => .error e
  | .absorbs bytes =>
    match asmBytes bytes with
    | .ok m => .ok (absorbsWords m)
    | .error e => .error e
  | .squeezel n => .ok (squeezelWords n)
  | .hash message r =>
    match asmBytes message, asmByte r with
    | .ok m, .ok r => .ok (hashWords m r)
    | _, _ => .error .badOperand

/-! ### From text to a line (log entry 10) -/

/-- The pieces of a source line. -/
inductive AsmToken where
  /-- A run of characters that is none of the others: a mnemonic or a number. -/
  | name (cs : List Char)
  /-- The characters between two double quotes. -/
  | text (cs : List Char)
  | comma
  | openBracket
  | closeBracket
deriving DecidableEq, Repr

/-- A pending name, if it is not empty, before the tokens that follow it. -/
def asmFlush (pending : List Char) (rest : List AsmToken) : List AsmToken :=
  if pending.isEmpty then rest else .name pending.reverse :: rest

/-- Splits a line into its pieces. `inText` says whether a quotation is open, `pending` holds the characters of the piece
being read, last one first. A `;` outside a quotation ends the line (R71). -/
def asmTokens (inText : Bool) (pending : List Char) : List Char → Option (List AsmToken)
  | [] => if inText then none else some (asmFlush pending [])
  | c :: cs =>
    if inText then
      if c = '"' then (asmTokens false [] cs).map (.text pending.reverse :: ·)
      else asmTokens true (c :: pending) cs
    else if c = ';' then some (asmFlush pending [])
    else if c = '"' then (asmTokens true [] cs).map (asmFlush pending)
    else if c = ',' then (asmTokens false [] cs).map fun ts => asmFlush pending (.comma :: ts)
    else if c = '[' then (asmTokens false [] cs).map fun ts => asmFlush pending (.openBracket :: ts)
    else if c = ']' then (asmTokens false [] cs).map fun ts => asmFlush pending (.closeBracket :: ts)
    else if c.isWhitespace then (asmTokens false [] cs).map (asmFlush pending)
    else asmTokens false (c :: pending) cs

/-- The value of a digit in a base up to 16. -/
def asmDigit (base : Nat) (c : Char) : Option Nat :=
  let n := c.toNat
  let d := if 48 ≤ n ∧ n ≤ 57 then n - 48 else if 65 ≤ n ∧ n ≤ 70 then n - 55 else if 97 ≤ n ∧ n ≤ 102 then n - 87 else 16
  if d < base then some d else none

/-- Digits read most significant first onto a value. -/
def asmDigits (base : Nat) (value : Nat) : List Char → Option Nat
  | [] => some value
  | c :: cs =>
    match asmDigit base c with
    | some d => asmDigits base (base * value + d) cs
    | none => none

/-- An unsigned integer, decimal or hexadecimal with the prefix `0x` (R71). -/
def asmNumber (cs : List Char) : Option Nat :=
  match cs with
  | [] => none
  | '0' :: 'x' :: [] => none
  | '0' :: 'x' :: rest => asmDigits 16 0 rest
  | c :: rest => asmDigits 10 0 (c :: rest)

/-- Numbers separated by commas, up to the end of the line. -/
def asmNumbers : List AsmToken → Option (List Nat)
  | [.name n] => (asmNumber n).map fun v => [v]
  | .name n :: .comma :: rest =>
    match asmNumber n, asmNumbers rest with
    | some v, some vs => some (v :: vs)
    | _, _ => none
  | _ => none

/-- The mnemonics of R63 with their opcodes. -/
def asmMnemonics : List (List Char × Byte) :=
  [(['I', 'N', 'I', 'T'], 0x01#8), (['A', 'B', 'S', 'O', 'R', 'B'], 0x02#8), (['A', 'B', 'S', 'O', 'R', 'B', 'N'], 0x03#8),
    (['A', 'B', 'S', 'T', 'O', 'P'], 0x04#8), (['S', 'H', 'U', 'F', 'F', 'L', 'E'], 0x05#8), (['D', 'R', 'I', 'P'], 0x06#8),
    (['S', 'Q', 'U', 'E', 'E', 'Z', 'E'], 0x07#8), (['U', 'P', 'D', 'A', 'T', 'E'], 0x08#8),
    (['O', 'U', 'T', 'P', 'U', 'T'], 0x09#8), (['H', 'F', 'I', 'N'], 0x0A#8)]

/-- `MNEMONIC` or `MNEMONIC operand` (R71). -/
def asmCommand (m : List Char) (rest : List AsmToken) : Option AsmLine :=
  match asmMnemonics.lookup m, rest with
  | some op, [] => some (.command op none)
  | some op, [.name n] => (asmNumber n).map fun v => .command op (some v)
  | _, _ => none

/-- The operands of ABSORBS: a quoted text, or byte numbers, or nothing (R72). -/
def asmAbsorbs : List AsmToken → Option AsmLine
  | [] => some (.absorbs [])
  | [.text cs] => some (.absorbs (cs.map Char.toNat))
  | ts => (asmNumbers ts).map .absorbs

/-- The operands of HASH: a quoted text or a bracketed list of byte numbers, a comma, the length (R74). -/
def asmHash (ts : List AsmToken) : Option AsmLine :=
  match ts with
  | [.text cs, .comma, .name n] => (asmNumber n).map fun r => .hash (cs.map Char.toNat) r
  | .openBracket :: rest =>
    let message := rest.takeWhile (· ≠ .closeBracket)
    match rest.drop message.length, (if message.isEmpty then some [] else asmNumbers message) with
    | [.closeBracket, .comma, .name n], some m => (asmNumber n).map fun r => .hash m r
    | _, _ => none
  | _ => none

/-- The line a list of pieces forms; none on a line of no form (R71 to R74). -/
def asmLineOf : List AsmToken → Option AsmLine
  | .name m :: rest =>
    if m = ['.', 'w', 'o', 'r', 'd'] then
      match rest with
      | [.name ('0' :: 'x' :: n)] => (asmNumber ('0' :: 'x' :: n)).map .word
      | _ => none
    else if m = ['A', 'B', 'S', 'O', 'R', 'B', 'S'] then asmAbsorbs rest
    else if m = ['S', 'Q', 'U', 'E', 'E', 'Z', 'E', 'L'] then
      match rest with
      | [.name n] => (asmNumber n).map .squeezel
      | _ => none
    else if m = ['H', 'A', 'S', 'H'] then asmHash rest
    else asmCommand m rest
  | _ => none

/-- The words of one source line; an empty line or a comment gives none (R71). -/
def assembleLine (line : List Char) : Except AsmError (List Word) :=
  match asmTokens false [] line with
  | none => .error .badLine
  | some [] => .ok []
  | some ts =>
    match asmLineOf ts with
    | some l => assemble l
    | none => .error .badLine

/-- The words of a source text, in line order (R71); the first refused line refuses it. -/
def assembleLines : List (List Char) → Except AsmError (List Word)
  | [] => .ok []
  | l :: rest =>
    match assembleLine l with
    | .error e => .error e
    | .ok ws =>
      match assembleLines rest with
      | .ok more => .ok (ws ++ more)
      | .error e => .error e

end Sys2Proof.Machine
end

