-- ==== Sys2Proof/Machine/HostPort.lean ====
section
/-!
DEFINITION. What the host can do to the machine between two steps (R155): send a word, assert reset, take a status code, take
a data byte. It has no other access (R28). These are moves of the environment, not steps of the engine.
-/

namespace Sys2Proof.Machine

/-- The host sends a command word, legal or not; the channel keeps the order (R60, R155). -/
def State.hostSend (s : State) (cmd : Word) : State := s.setCommandIn (s.commandIn ++ [cmd])

/-- The host sends several words, in order. -/
def State.hostSendAll (s : State) (cmds : List Word) : State := s.setCommandIn (s.commandIn ++ cmds)

/-- The host asserts reset while the engine is between commands (R151, R155). -/
def State.hostReset (s : State) : State := s.setResetIn true

/-- The host takes the oldest status code, which is thereby consumed (R46, R60). -/
def State.hostTakeStatus (s : State) : Option (Status × State) :=
  match s.statusOut with
  | [] => none
  | st :: rest => some (st, { s with statusOut := rest })

/-- The host takes the oldest data byte, which is thereby consumed (R46, R60). -/
def State.hostTakeByte (s : State) : Option (Byte × State) :=
  match s.dataOut with
  | [] => none
  | b :: rest => some (b, { s with dataOut := rest })

end Sys2Proof.Machine
end

