-- ==== Sys2Proof/Safety.lean ====
section
/-!
DEFINITION. The terms claims are stated in: the invariant of the machine, a response, what a command leaves unchanged, and a
run of command words (R156).
-/

namespace Sys2Proof.Machine

/-- The invariant: the architectural state meets R22, R24 and R25, the table in its canonical form. -/
def State.Inv (s : State) : Prop := s.engine.valid = true

/-- Every answer of a step from here is a next state: no fault and no refusal (R130). -/
def State.Safe (s : State) : Prop := ∃ t, step s = .next t

/-- The engine is idle with nothing to serve but the words on its command channel. -/
def State.Ready (s : State) (cmds : List Word) : Prop := s.resetIn = false ∧ s.commandIn = cmds

/-- `t` differs from `s` in the engine and by one response (`st`, `data`) only; what the host had sent stays sent (R70). -/
def State.Answers (s t : State) (st : Status) (data : List Byte) : Prop :=
  t.statusOut = s.statusOut ++ [st] ∧ t.dataOut = s.dataOut ++ data ∧ t.commandIn = s.commandIn ∧ t.resetIn = s.resetIn

/-- The machine refuses the word: the response of R131 and nothing else, in every state. -/
def Refused (cmd : Word) : Prop := ∀ s : State, runWord cmd s = .next s.raiseIllegal

/-- The word is the command `i`, in every state. -/
def Encodes (cmd : Word) (i : Instr) : Prop := ∀ s : State, runWord cmd s = exec i s

/-- The number of data bytes of a response: the column "data bytes" of R63, and none for an illegal word (R70). -/
def dataBytes : Decoded → Nat
  | .ok .drip | .ok .output => 1
  | .ok (.squeeze r) | .ok (.hfin r) => r.toNat
  | .ok .init | .ok (.absorb _) | .ok (.absorbn _) | .ok .abstop | .ok .shuffle | .ok .update => 0
  | .illegal _ => 0

/-- The status of a response: OK for a legal word, ILLEGAL for the others (R70, R131). -/
def statusOf : Decoded → Status
  | .ok _ => .ok
  | .illegal _ => .illegal

/-- `e'` has the registers `i`, `j`, `k`, `z`, `w` of `e`. -/
def Engine.SameRegisters (e e' : Engine) : Prop :=
  e'.i = e.i ∧ e'.j = e.j ∧ e'.k = e.k ∧ e'.z = e.z ∧ e'.w = e.w

/-- Every location outside `ps` reads as before, and so every byte of memory where `ps` is empty. -/
def Engine.SameTableExcept (e e' : Engine) (ps : List Byte) : Prop :=
  ∀ p : Byte, p ∉ ps → e'.read p = e.read p

/-- One absorption: a nibble, or (none) the stop marker (R85, R89). -/
def Engine.absorption (e : Engine) : Option Nibble → Engine
  | some x => e.absorbNibble x
  | none => e.absorbStop

/-- A run of the machine over the `n` oldest words of its command channel (R156). -/
abbrev runs (n : Nat) (s : State) : Host.Outcome State Fault Refusal := Sys2Proof.core.run n s

end Sys2Proof.Machine
end

