-- ==== Sys2Proof/Certificates/Slice0/Obligations.lean ====
section
/-!
DEFINITION. The statements for the provers. `State.Inv`, `State.Ready`, `State.Answers`, `Refused`, `Encodes` and the other
terms are those of Sys2Proof/Safety.lean. `s.engine` is the architectural state of R20.
-/

open Sys2Proof Sys2Proof.Machine

/-! ### Encoding -/

/-- R61 to R64: a word decodes to an instruction exactly when it is that instruction's command word; no bit of an encoding is
dropped and no instruction has two words. -/
def Obligations.DecodeInvertsEncode : Prop :=
  (∀ i : Instr, decode (encode i) = .ok i) ∧ ∀ (cmd : Word) (i : Instr), decode cmd = .ok i → cmd = encode i

/-- R63: a word selects the row when `cmd AND mask = match`, and then decodes to an instruction of that row. -/
def Obligations.RowSelectedByMaskAndMatch : Prop :=
  (∀ (cmd : Word) (i : Instr), decode cmd = .ok i → cmd &&& rowMask i = rowMatch i) ∧
    ∀ (cmd : Word) (i : Instr), cmd &&& rowMask i = rowMatch i → ∃ i', decode cmd = .ok i' ∧ opcode i' = opcode i

/-- R64, its five steps: the fields, the unknown opcode, the nonzero operand of format Z, the nibble out of range, and otherwise
the row of `op` with its operand; what is refused is refused before any state change. -/
def Obligations.DecodingProcedure : Prop :=
  ∀ cmd : Word,
    let op : Byte := cmd.extractLsb' 8 8
    let imm8 : Byte := cmd.extractLsb' 0 8
    if op = 0x00#8 ∨ 0x0A#8 < op then decode cmd = .illegal .unknownOpcode ∧ Refused cmd
    else if op ∈ [0x01#8, 0x04#8, 0x05#8, 0x06#8, 0x08#8, 0x09#8] ∧ imm8 ≠ 0#8 then
      decode cmd = .illegal .strayOperand ∧ Refused cmd
    else if op = 0x03#8 ∧ imm8.extractLsb' 4 4 ≠ 0#4 then decode cmd = .illegal .nibbleOutOfRange ∧ Refused cmd
    else ∃ i : Instr, decode cmd = .ok i ∧ opcode i = op ∧ operand i = imm8 ∧ Encodes cmd i

/-- R65: the legal words are the well-formed ones and no others, 790 of the 65 536; 0x0000 and 0xFFFF are illegal; every illegal
word has the same behaviour. -/
def Obligations.IllegalEncodingsExactly : Prop :=
  (∀ cmd : Word, (∃ i, decode cmd = .ok i) ↔ (Fields.ofWord cmd).wellFormed = true) ∧
    (Finset.univ.filter fun cmd : Word => (Fields.ofWord cmd).wellFormed = true).card = 790 ∧
    (Fields.ofWord 0x0000#16).wellFormed = false ∧ (Fields.ofWord 0xFFFF#16).wellFormed = false ∧
    ∀ cmd : Word, (Fields.ofWord cmd).wellFormed = false → Refused cmd

/-- R63: one word of every row, written out from its `encoding` string, and the instruction it stands for. -/
def Obligations.SampleWordsDecode : Prop :=
  decode 0b0000000100000000#16 = .ok .init ∧ decode 0b0000001001000001#16 = .ok (.absorb 0x41#8) ∧
    decode 0b0000001100000101#16 = .ok (.absorbn 0x5#4) ∧ decode 0b0000010000000000#16 = .ok .abstop ∧
    decode 0b0000010100000000#16 = .ok .shuffle ∧ decode 0b0000011000000000#16 = .ok .drip ∧
    decode 0b0000011100010000#16 = .ok (.squeeze 0x10#8) ∧ decode 0b0000100000000000#16 = .ok .update ∧
    decode 0b0000100100000000#16 = .ok .output ∧ decode 0b0000101000100000#16 = .ok (.hfin 0x20#8)

/-! ### Steps, responses, reset -/

/-- R49, R64: with no reset asserted and a legal word the oldest on the command channel, a step is the execution of that word's
instruction on the state in which the word is consumed. -/
def Obligations.StepRunsTheDecodedCommand : Prop :=
  ∀ (s : State) (cmd : Word) (rest : List Word) (i : Instr), s.Ready (cmd :: rest) → decode cmd = .ok i →
    step s = exec i (s.setCommandIn rest)

/-- R131: an illegal word gets the response (ILLEGAL, no data), code 1 (a legal one has code 0), and nothing else changes but
that the word is consumed; only the decoder raises it, no operation does. -/
def Obligations.IllegalCommandResponse : Prop :=
  Status.code .illegal = 1#2 ∧ Status.code .ok = 0#2 ∧
    (∀ (s : State) (cmd : Word) (rest : List Word), s.Ready (cmd :: rest) → (Fields.ofWord cmd).wellFormed = false →
      ∃ t, step s = .next t ∧ t.engine = s.engine ∧ (s.setCommandIn rest).Answers t .illegal []) ∧
    ∀ (s t : State) (i : Instr), exec i s = .next t → t.statusOut = s.statusOut ++ [.ok]

/-- R132: after an illegal word the next command is executed normally on the unchanged engine. -/
def Obligations.FaultIsNotSticky : Prop :=
  ∀ (s : State) (bad cmd : Word) (rest : List Word) (i : Instr), s.Ready (bad :: cmd :: rest) →
    (Fields.ofWord bad).wellFormed = false → decode cmd = .ok i →
    ∃ t, step s = .next t ∧ t.engine = s.engine ∧ step t = exec i (t.setCommandIn rest)

/-- R70: every accepted word produces exactly one response, one status code (0 or 1, never 2 or 3) and the number of data bytes its
row gives, each after what was sent before. -/
def Obligations.OneResponsePerCommand : Prop :=
  Status.code .ok = 0#2 ∧ Status.code .illegal = 1#2 ∧ (∀ st : Status, st.code ≠ 2#2 ∧ st.code ≠ 3#2) ∧
    ∀ (s : State) (cmd : Word), s.Inv →
      ∃ t data, runWord cmd s = .next t ∧ s.Answers t (statusOf (decode cmd)) data ∧ data.length = dataBytes (decode cmd)

/-- R30, R49: what a word does depends on the engine alone; the channels' contents have no influence on it. -/
def Obligations.ChannelsDoNotInfluenceCommands : Prop :=
  ∀ (s s' : State) (cmd : Word), s.Inv → s'.engine = s.engine →
    ∃ t t' st data, runWord cmd s = .next t ∧ runWord cmd s' = .next t' ∧ t'.engine = t.engine ∧
      s.Answers t st data ∧ s'.Answers t' st data

/-- R70, R156: a run over the words sent answers every one of them, in order: one status code per word, the data bytes each
word's row gives. -/
def Obligations.RunAnswersEveryWord : Prop :=
  ∀ (cmds : List Word) (s : State), s.Inv → s.Ready cmds →
    ∃ t data, runs cmds.length s = .next t ∧ t.Inv ∧ t.Ready [] ∧
      t.statusOut = s.statusOut ++ cmds.map (fun c => statusOf (decode c)) ∧ t.dataOut = s.dataOut ++ data ∧
      data.length = (cmds.map fun c => dataBytes (decode c)).sum

/-- R31: every item after INIT, from any state, and every item after reset. -/
def Obligations.InitialAndResetValues : Prop :=
  (∀ s : State, ∃ t, exec .init s = .next t ∧ (∀ v : Byte, t.engine.read v = v) ∧ t.engine.i = 0#8 ∧ t.engine.j = 0#8 ∧
      t.engine.k = 0#8 ∧ t.engine.z = 0#8 ∧ t.engine.w = 1#8 ∧ t.engine.a = 0#8) ∧
    (∀ v : Byte, State.reset.engine.read v = v) ∧ State.reset.engine.i = 0#8 ∧ State.reset.engine.j = 0#8 ∧
    State.reset.engine.k = 0#8 ∧ State.reset.engine.z = 0#8 ∧ State.reset.engine.w = 1#8 ∧ State.reset.engine.a = 0#8

/-- R150, R151, R136: with the reset input asserted a step makes the engine the reset one and does nothing else, whatever is on
the command channel. That the request is then served, and that the channels keep what is on them, is the model's choice (log
entry 5). -/
def Obligations.ResetEvent : Prop :=
  ∀ s : State, s.resetIn = true →
    ∃ t, step s = .next t ∧ t.engine = State.reset.engine ∧ t.commandIn = s.commandIn ∧ t.statusOut = s.statusOut ∧
      t.dataOut = s.dataOut ∧ t.resetIn = false

/-- With no reset asserted and no word sent, a step changes nothing (the model's choice, log entry 4). -/
def Obligations.IdleStepChangesNothing : Prop :=
  ∀ s : State, s.Ready [] → step s = .next s

/-! ### INIT, UPDATE, OUTPUT -/

/-- R80: INIT from any state; its operand words are illegal. -/
def Obligations.InitCommand : Prop :=
  Encodes 0x0100#16 .init ∧ (∀ imm8 : Byte, imm8 ≠ 0#8 → Refused (0x01#8 ++ imm8)) ∧
    ∀ s : State, ∃ t, exec .init s = .next t ∧ s.Answers t .ok [] ∧ (∀ v : Byte, t.engine.read v = v) ∧ t.engine.i = 0#8 ∧
      t.engine.j = 0#8 ∧ t.engine.k = 0#8 ∧ t.engine.z = 0#8 ∧ t.engine.a = 0#8 ∧ t.engine.w = 1#8 ∧
      ∀ s' : State, exec .init s' = .next (s'.complete (t.engine, []))

/-- R113, R114: the new `i`, `j`, `k` in order, the swap of the entries at the new `i` and the new `j`, nothing else, no data,
whatever `a` is; `i` always changes. -/
def Obligations.UpdateCommand : Prop :=
  Encodes 0x0800#16 .update ∧ (∀ imm8 : Byte, imm8 ≠ 0#8 → Refused (0x08#8 ++ imm8)) ∧
    ∀ s : State, s.Inv →
      let e := s.engine
      let i' := e.i + e.w
      let j' := e.k + e.read (e.j + e.read i')
      ∃ t, exec .update s = .next t ∧ s.Answers t .ok [] ∧ t.engine.i = i' ∧ t.engine.j = j' ∧
        t.engine.k = i' + e.k + e.read j' ∧ t.engine.read i' = e.read j' ∧ t.engine.read j' = e.read i' ∧
        e.SameTableExcept t.engine [i', j'] ∧ t.engine.z = e.z ∧ t.engine.w = e.w ∧ t.engine.a = e.a ∧ t.engine.i ≠ e.i

/-- R115, R116: the three indirect reads give the new `z`, which is the byte emitted; nothing else changes, whatever `a` is. -/
def Obligations.OutputCommand : Prop :=
  Encodes 0x0900#16 .output ∧ (∀ imm8 : Byte, imm8 ≠ 0#8 → Refused (0x09#8 ++ imm8)) ∧
    ∀ s : State, s.Inv →
      let e := s.engine
      let z' := e.read (e.j + e.read (e.i + e.read (e.z + e.k)))
      ∃ t, exec .output s = .next t ∧ s.Answers t .ok [z'] ∧ t.engine.z = z' ∧ e.SameTableExcept t.engine [] ∧
        t.engine.i = e.i ∧ t.engine.j = e.j ∧ t.engine.k = e.k ∧ t.engine.w = e.w ∧ t.engine.a = e.a

/-! ### Whip, Crush, SHUFFLE -/

/-- R95: `r` updates, all with the entry value of `w` (so `i` advances by `r` times it), then `w <- w + 2`; `z` and `a` are not
touched. -/
def Obligations.WhipProcedure : Prop :=
  ∀ (e : Engine) (r : Nat),
    (e.whip r).S = (Engine.update^[r] e).S ∧ (e.whip r).i = e.i + BitVec.ofNat 8 r * e.w ∧
      (e.whip r).j = (Engine.update^[r] e).j ∧ (e.whip r).k = (Engine.update^[r] e).k ∧ (e.whip r).w = e.w + 2#8 ∧
      (e.whip r).z = e.z ∧ (e.whip r).a = e.a

/-- R96: after Crush every pair is in order, strictly; each pair holds what it held; the order of the visits is immaterial; a
second Crush changes nothing; the identity table is not changed; only `S` is written. -/
def Obligations.CrushProcedure : Prop :=
  (∀ e : Engine, e.valid = true →
      (∀ v : Byte, v < 128#8 → e.crush.read v < e.crush.read (255#8 - v) ∧
        (if e.read (255#8 - v) < e.read v then e.crush.read v = e.read (255#8 - v) ∧ e.crush.read (255#8 - v) = e.read v
          else e.crush.read v = e.read v ∧ e.crush.read (255#8 - v) = e.read (255#8 - v))) ∧
      e.SameRegisters e.crush ∧ e.crush.a = e.a ∧ e.crush.crush = e.crush ∧
      ∀ vs : List Nat, vs.Perm (List.range 128) → vs.foldl (fun e v => e.crushPair (BitVec.ofNat 8 v)) e = e.crush) ∧
    Engine.reset.crush = Engine.reset

/-- R97, R98: SHUFFLE is whip, crush, whip, crush, whip with the length 512 whatever `a` is, then `a` is 0; `w` advances by 6, `z`
is not touched, `a` is not read, no data. -/
def Obligations.ShuffleCommand : Prop :=
  Encodes 0x0500#16 .shuffle ∧ (∀ imm8 : Byte, imm8 ≠ 0#8 → Refused (0x05#8 ++ imm8)) ∧
    ∀ s : State, s.Inv →
      ∃ t, exec .shuffle s = .next t ∧ s.Answers t .ok [] ∧
        t.engine = (((((s.engine.whip 512).crush).whip 512).crush).whip 512).setA 0#8 ∧ t.engine.w = s.engine.w + 6#8 ∧
        t.engine.z = s.engine.z ∧ t.engine.a = 0#8 ∧ ∀ a' : Byte, (s.engine.setA a').shuffle = t.engine

/-- R100 and R24's count: Shuffle leaves `i` and `z`, adds 6 to an odd `w`, leaves `a = 0` and a permutation; 128 shuffles bring
`w` back; the absorption commands and SHUFFLE never change `i` and emit nothing. -/
def Obligations.ShuffleProperties : Prop :=
  (∀ e : Engine, e.valid = true →
      e.shuffle.i = e.i ∧ e.shuffle.w = e.w + 6#8 ∧ e.shuffle.w.getLsbD 0 = true ∧ e.shuffle.z = e.z ∧ e.shuffle.a = 0#8 ∧
      Function.Bijective e.shuffle.read ∧ (∀ n : Nat, (Engine.shuffle^[n] e).w = e.w + BitVec.ofNat 8 (6 * n)) ∧
      (Engine.shuffle^[128] e).w = e.w) ∧
    ∀ (s : State) (i : Instr), s.Inv → i = .shuffle ∨ i = .abstop ∨ (∃ x, i = .absorbn x) ∨ (∃ b, i = .absorb b) →
      ∃ t, exec i s = .next t ∧ t.engine.i = s.engine.i ∧ s.Answers t .ok []

/-! ### Absorption -/

/-- R85, R86: ABSORBN shuffles first if `a = 128`; then swaps `S[a]` with `S[128 + x]`, two different locations, and increments
`a`; nothing else changes and nothing is emitted; a nibble out of range is an illegal word. -/
def Obligations.AbsorbNibbleCommand : Prop :=
  (∀ x : Nibble, Encodes (0x0300#16 + x.setWidth 16) (.absorbn x)) ∧
    (∀ imm8 : Byte, imm8.extractLsb' 4 4 ≠ 0#4 → Refused (0x03#8 ++ imm8)) ∧
    ∀ (s : State) (x : Nibble), s.Inv →
      let e := if s.engine.a = 128#8 then s.engine.shuffle else s.engine
      let q : Byte := 128#8 + x.setWidth 8
      ∃ t, exec (.absorbn x) s = .next t ∧ s.Answers t .ok [] ∧ e.a < 128#8 ∧ e.a ≠ q ∧ t.engine.read e.a = e.read q ∧
        t.engine.read q = e.read e.a ∧ e.SameTableExcept t.engine [e.a, q] ∧ e.SameRegisters t.engine ∧
        t.engine.a.toNat = e.a.toNat + 1

/-- R87: ABSORB is ABSORBN of the low nibble, then ABSORBN of the high nibble, each with its own saturation test, as one command;
every word 0x0200..0x02FF is one. -/
def Obligations.AbsorbCommand : Prop :=
  (∀ b : Byte, Encodes (0x0200#16 + b.setWidth 16) (.absorb b)) ∧
    ∀ (s : State) (b : Byte), s.Inv →
      ∃ t t₁ t₂, exec (.absorb b) s = .next t ∧ exec (.absorbn (b.extractLsb' 0 4)) s = .next t₁ ∧
        exec (.absorbn (b.extractLsb' 4 4)) t₁ = .next t₂ ∧ t.engine = t₂.engine ∧ s.Answers t .ok []

/-- R87, R34, R90(d): an ABSORB that meets no saturation changes `a` by 2 and at most the locations `a`, `a + 1` and the two of
the nibble window; no register changes. -/
def Obligations.AbsorbFrameWithoutShuffle : Prop :=
  ∀ (s : State) (b : Byte), s.Inv → s.engine.a ≤ 126#8 →
    ∃ t, exec (.absorb b) s = .next t ∧ s.Answers t .ok [] ∧ t.engine.a = s.engine.a + 2#8 ∧
      s.engine.SameRegisters t.engine ∧
      s.engine.SameTableExcept t.engine [s.engine.a, s.engine.a + 1#8, 128#8 + (b.extractLsb' 0 4).setWidth 8,
        128#8 + (b.extractLsb' 4 4).setWidth 8]

/-- R89: ABSTOP shuffles first if `a = 128`, then increments `a`; it touches nothing else and emits nothing. -/
def Obligations.AbsorbStopCommand : Prop :=
  Encodes 0x0400#16 .abstop ∧ (∀ imm8 : Byte, imm8 ≠ 0#8 → Refused (0x04#8 ++ imm8)) ∧
    ∀ s : State, s.Inv →
      let e := if s.engine.a = 128#8 then s.engine.shuffle else s.engine
      ∃ t, exec .abstop s = .next t ∧ s.Answers t .ok [] ∧ t.engine.a.toNat = e.a.toNat + 1 ∧ t.engine.a.toNat ≤ 128 ∧
        e.SameRegisters t.engine ∧ e.SameTableExcept t.engine []

/-- R90(e) with (a), (b) and (d): from `a = 0` the shuffles of a stream of absorptions, nibbles and stops together, fall before the
129th, the 257th, ...: `w` counts them, and `a` counts the absorptions since; without one no register is touched. -/
def Obligations.AbsorptionsBetweenShuffles : Prop :=
  ∀ (e : Engine) (xs : List (Option Nibble)), e.valid = true → e.a = 0#8 →
    let e' := xs.foldl Engine.absorption e
    e'.w = e.w + BitVec.ofNat 8 (6 * ((xs.length - 1) / 128)) ∧
      e'.a.toNat = (if xs.length = 0 then 0 else (xs.length - 1) % 128 + 1) ∧
      (xs.length ≤ 128 → e.SameRegisters e') ∧ Function.Bijective e'.read

/-- R72, R88: the words of a byte sequence absorb its bytes first to last, with status OK and no data, and absorbing two sequences
one after the other is absorbing their concatenation. -/
def Obligations.AbsorbSequence : Prop :=
  (∀ (m : List Byte) (rest : List Word) (s : State), s.Inv → s.Ready (absorbsWords m ++ rest) →
      ∃ t, runs m.length s = .next t ∧ t.engine = m.foldl (fun e b => (e.absorbNibble (b.extractLsb' 0 4)).absorbNibble
          (b.extractLsb' 4 4)) s.engine ∧ t.Ready rest ∧ t.statusOut = s.statusOut ++ List.replicate m.length .ok ∧
        t.dataOut = s.dataOut) ∧
    ∀ (e : Engine) (m₁ m₂ : List Byte), (e.absorbBytes m₁).absorbBytes m₂ = e.absorbBytes (m₁ ++ m₂)

/-! ### Extraction -/

/-- R105: DRIP is SHUFFLE if `a > 0`, then UPDATE, then OUTPUT, as one command that emits the one byte, the new `z`; `a` is 0
afterwards. -/
def Obligations.DripCommand : Prop :=
  Encodes 0x0600#16 .drip ∧ (∀ imm8 : Byte, imm8 ≠ 0#8 → Refused (0x06#8 ++ imm8)) ∧
    ∀ s : State, s.Inv →
      ∃ t t₀ t₁ t₂, exec .drip s = .next t ∧ (if 0#8 < s.engine.a then exec .shuffle s = .next t₀ else t₀ = s) ∧
        exec .update t₀ = .next t₁ ∧ exec .output t₁ = .next t₂ ∧ t.engine = t₂.engine ∧ s.Answers t .ok [t.engine.z] ∧
        t.engine.a = 0#8

/-- R106: SQUEEZE shuffles once if `a > 0`, also for `r = 0`; then each of the `r` bytes is the `z` of one more update and output,
in the order produced. -/
def Obligations.SqueezeCommand : Prop :=
  (∀ r : Byte, Encodes (0x0700#16 + r.setWidth 16) (.squeeze r)) ∧
    ∀ (s : State) (r : Byte), s.Inv →
      let e := if 0#8 < s.engine.a then s.engine.shuffle else s.engine
      let pair : Engine → Engine := fun e => e.update.output
      ∃ t, exec (.squeeze r) s = .next t ∧ t.engine = pair^[r.toNat] e ∧
        s.Answers t .ok ((List.range r.toNat).map fun n => (pair^[n + 1] e).z) ∧ t.engine.a = 0#8

/-- R107: for `r ≥ 1` a squeeze is `r` drips, bytes and end state; for `r = 0` it shuffles if `a > 0` and does nothing else; and a
squeeze splits in two anywhere. -/
def Obligations.SqueezeIsDripsAndSplits : Prop :=
  (∀ e : Engine, (e.squeeze 0).2 = [] ∧ (e.squeeze 0).1 = if 0#8 < e.a then e.shuffle else e) ∧
  (∀ (e : Engine) (r : Nat), 1 ≤ r → (e.squeeze r).1 = Engine.drip^[r] e ∧
      (e.squeeze r).2 = (List.range r).map fun n => (Engine.drip^[n + 1] e).z) ∧
    (∀ (e : Engine) (r₁ r₂ : Nat), ((e.squeeze r₁).1.squeeze r₂).1 = (e.squeeze (r₁ + r₂)).1 ∧
      (e.squeeze r₁).2 ++ ((e.squeeze r₁).1.squeeze r₂).2 = (e.squeeze (r₁ + r₂)).2) ∧
    ∀ (s : State) (r₁ r₂ : Byte), s.Inv → r₁.toNat + r₂.toNat ≤ 255 →
      ∃ t₁ t₂ t, exec (.squeeze r₁) s = .next t₁ ∧ exec (.squeeze r₂) t₁ = .next t₂ ∧ exec (.squeeze (r₁ + r₂)) s = .next t ∧
        t₂.engine = t.engine ∧ t₂.dataOut = t.dataOut

/-- R108: after DRIP and after SQUEEZE `a = 0`; SQUEEZE 0 with `a = 0` leaves the whole engine and emits nothing; with `a > 0` it
is SHUFFLE (R106). -/
def Obligations.SqueezeZero : Prop :=
  ∀ s : State, s.Inv →
    (∃ t, exec (.squeeze 0#8) s = .next t ∧ s.Answers t .ok [] ∧
      t.engine = if s.engine.a = 0#8 then s.engine else s.engine.shuffle) ∧
    (∀ r : Byte, ∃ t, exec (.squeeze r) s = .next t ∧ t.engine.a = 0#8) ∧ ∃ t, exec .drip s = .next t ∧ t.engine.a = 0#8

/-- R73: the expansion of SQUEEZEL n gives the `n` bytes of squeeze(n) and its end state, for every `n`. -/
def Obligations.LongSqueeze : Prop :=
  ∀ (n : Nat) (rest : List Word) (s : State), s.Inv → s.Ready (squeezelWords n ++ rest) →
    ∃ t, runs (squeezelWords n).length s = .next t ∧ t.engine = (s.engine.squeeze n).1 ∧
      t.dataOut = s.dataOut ++ (s.engine.squeeze n).2 ∧ (s.engine.squeeze n).2.length = n ∧ t.Ready rest ∧
      t.statusOut = s.statusOut ++ List.replicate (squeezelWords n).length .ok

/-! ### The hash construction -/

/-- R122: HFIN r is ABSTOP, ABSORB r, SQUEEZE r run as one command: the same end state and the same data bytes. -/
def Obligations.HashTailCommand : Prop :=
  (∀ r : Byte, Encodes (0x0A00#16 + r.setWidth 16) (.hfin r)) ∧
    ∀ (s : State) (r : Byte), s.Inv →
      ∃ t t₁ t₂ t₃ data, exec (.hfin r) s = .next t ∧ exec .abstop s = .next t₁ ∧ exec (.absorb r) t₁ = .next t₂ ∧
        exec (.squeeze r) t₂ = .next t₃ ∧ t.engine = t₃.engine ∧ t.dataOut = t₃.dataOut ∧ s.Answers t .ok data ∧
        data.length = r.toNat ∧ t.engine.a = 0#8

/-- R121, R125: Hash is a pure function of `(M, r)`, whatever the engine before, and returns exactly `r` bytes. -/
def Obligations.HashIsPureAndExact : Prop :=
  ∀ (e e' : Engine) (m : List Byte) (r : Byte), e.hash m r = e'.hash m r ∧ (e.hash m r).2.length = r.toNat

/-- R123, R74, R121: the `n + 2` words INIT, ABSORB of each byte, HFIN r, run from any state, have status OK each and their data
bytes are those of Hash(M, r); so do the words INIT, ABSORB .., ABSTOP, ABSORB r, SQUEEZE r; and a reset engine may do without the
leading INIT. -/
def Obligations.HashCommandSequence : Prop :=
  ∀ (m : List Byte) (r : Byte) (rest : List Word) (s : State),
    (s.Ready (hashWords m r ++ rest) →
      ∃ t, runs (m.length + 2) s = .next t ∧ t.engine = (s.engine.hash m r).1 ∧
        t.dataOut = s.dataOut ++ (s.engine.hash m r).2 ∧
        t.statusOut = s.statusOut ++ List.replicate (m.length + 2) .ok ∧ t.Ready rest) ∧
    (s.Ready (encode .init :: absorbsWords m ++ [encode .abstop, encode (.absorb r), encode (.squeeze r)] ++ rest) →
      ∃ t, runs (m.length + 4) s = .next t ∧ t.engine = (s.engine.hash m r).1 ∧
        t.dataOut = s.dataOut ++ (s.engine.hash m r).2 ∧ t.Ready rest) ∧
    (s.engine = State.reset.engine → s.Ready (absorbsWords m ++ [encode (.hfin r)] ++ rest) →
      ∃ t, runs (m.length + 1) s = .next t ∧ t.engine = (s.engine.hash m r).1 ∧
        t.dataOut = s.dataOut ++ (s.engine.hash m r).2 ∧ t.Ready rest)

/-- R162, R34: a hash of an `n`-byte message shuffles once for every full 128 of its `2n + 3` absorptions that another one follows,
and once before squeezing; each shuffle adds 6 to `w`. -/
def Obligations.HashShuffleCount : Prop :=
  ∀ (e : Engine) (m : List Byte) (r : Byte),
    (e.hash m r).1.w = BitVec.ofNat 8 (1 + 6 * ((2 * m.length + 3 - 1) / 128 + 1)) ∧ (e.hash m r).1.a = 0#8

/-! ### The assembler -/

/-- R71: a command line is assembled exactly when its operand is in the command's range, and then to the one word of the command
with that operand; it is refused otherwise, never truncated. -/
def Obligations.AssemblerRefusesOutOfRange : Prop :=
  (∀ (i : Instr), assemble (.command (opcode i) (if opcode i ∈ Fields.formatZ then none else some (operand i).toNat)) =
      .ok [encode i]) ∧
    ∀ (op : Byte) (n : Option Nat) (ws : List Word), assemble (.command op n) = .ok ws →
      ∃ i, ws = [encode i] ∧ opcode i = op ∧ n = if op ∈ Fields.formatZ then none else some (operand i).toNat

/-- R72, R73, R74: what the three pseudo-instructions expand to, and that a byte or a length outside 0..255 is refused. -/
def Obligations.PseudoInstructionsExpand : Prop :=
  (∀ bytes : List Nat, assemble (.absorbs bytes) =
      if ∀ b ∈ bytes, b < 256 then .ok (bytes.map fun b => 0x0200#16 + BitVec.ofNat 16 b) else .error .badOperand) ∧
    (∀ n : Nat, assemble (.squeezel n) =
      .ok (if n = 0 then [0x0700#16]
        else List.replicate (n / 255) 0x07FF#16 ++ if 0 < n % 255 then [0x0700#16 + BitVec.ofNat 16 (n % 255)] else [])) ∧
    ∀ (message : List Nat) (r : Nat), assemble (.hash message r) =
      if (∀ b ∈ message, b < 256) ∧ r < 256 then
        .ok (0x0100#16 :: (message.map fun b => 0x0200#16 + BitVec.ofNat 16 b) ++ [0x0A00#16 + BitVec.ofNat 16 r])
      else .error .badOperand

/-! ### Whole-machine statements -/

/-- R22, R24, R25, R150: the reset state meets the invariant. -/
def Obligations.InvariantAtReset : Prop := State.reset.Inv

/-- R22, R24, R25: every step keeps the invariant: the table a permutation in its canonical form, `w` odd, `a` at most 128. -/
def Obligations.InvariantKeptByEveryStep : Prop :=
  ∀ s t : State, s.Inv → step s = .next t →
    t.Inv ∧ Function.Bijective t.engine.read ∧ t.engine.w.toNat % 2 = 1 ∧ t.engine.a.toNat ≤ 128

/-- R130: no step from a valid state faults or is refused, however long the run. -/
def Obligations.EveryRunGoesOn : Prop :=
  ∀ (s : State), s.Inv → ∀ n : Nat, ∃ t, runs n s = .next t ∧ t.Inv

/-- R130: every legal command completes with status OK, for any valid state and any operand. -/
def Obligations.LegalCommandsComplete : Prop :=
  ∀ (s : State) (i : Instr), s.Inv →
    ∃ t data, exec i s = .next t ∧ s.Answers t .ok data ∧ data.length = dataBytes (.ok i) ∧ t.Inv

/-- R34, the columns `w`, `a` and `z` for every command, the shuffle conditions of each included, and the entries "never" of `i`,
`j`, `k` and `S`. -/
def Obligations.WriteSummary : Prop :=
  ∀ (s : State) (i : Instr), s.Inv →
    ∃ t, exec i s = .next t ∧
      let e := s.engine
      let e' := t.engine
      match i with
      | .init => e' = Engine.reset
      | .absorb _ =>
        e'.z = e.z ∧ (if e.a = 127#8 then e'.w = e.w + 6#8 ∧ e'.a = 1#8 else if e.a = 128#8 then e'.w = e.w + 6#8 ∧ e'.a = 2#8
          else e.SameRegisters e' ∧ e'.a = e.a + 2#8)
      | .absorbn _ => e'.z = e.z ∧ (if e.a = 128#8 then e'.w = e.w + 6#8 ∧ e'.a = 1#8 else e.SameRegisters e' ∧ e'.a = e.a + 1#8)
      | .abstop =>
        e'.z = e.z ∧ (if e.a = 128#8 then e'.w = e.w + 6#8 ∧ e'.a = 1#8
          else e.SameRegisters e' ∧ e.SameTableExcept e' [] ∧ e'.a = e.a + 1#8)
      | .shuffle => e'.i = e.i ∧ e'.z = e.z ∧ e'.w = e.w + 6#8 ∧ e'.a = 0#8
      | .drip => e'.a = 0#8 ∧ e'.w = if 0#8 < e.a then e.w + 6#8 else e.w
      | .squeeze r => e'.a = 0#8 ∧ (e'.w = if 0#8 < e.a then e.w + 6#8 else e.w) ∧ (r = 0#8 → e'.z = e.z)
      | .update => e'.z = e.z ∧ e'.w = e.w ∧ e'.a = e.a
      | .output => e'.i = e.i ∧ e'.j = e.j ∧ e'.k = e.k ∧ e'.w = e.w ∧ e'.a = e.a ∧ e.SameTableExcept e' []
      | .hfin r => e'.a = 0#8 ∧ (e'.w = if 126#8 ≤ e.a then e.w + 12#8 else e.w + 6#8) ∧ (r = 0#8 → e'.z = e.z)

/-- Outside the invariants every command but INIT is refused by name (93_implementation_defined.md U8; the model's choice, log
entry 6). -/
def Obligations.NoMeaningOutsideInvariants : Prop :=
  ∀ (s : State) (i : Instr), ¬ s.Inv → i ≠ .init → exec i s = .refused .outsideInvariants
end

