-- ==== Sys2Proof/Laws/State.lean ====
section
/-!
SUPPORT. One lemma per field per update of State and Engine, so that no proof unfolds a record update.
-/

namespace Sys2Proof.Machine

@[simp] theorem Engine.setS_S (e : Engine) (v : Table) : (e.setS v).S = v := (rfl)
@[simp] theorem Engine.setS_i (e : Engine) (v : Table) : (e.setS v).i = e.i := (rfl)
@[simp] theorem Engine.setS_j (e : Engine) (v : Table) : (e.setS v).j = e.j := (rfl)
@[simp] theorem Engine.setS_k (e : Engine) (v : Table) : (e.setS v).k = e.k := (rfl)
@[simp] theorem Engine.setS_z (e : Engine) (v : Table) : (e.setS v).z = e.z := (rfl)
@[simp] theorem Engine.setS_w (e : Engine) (v : Table) : (e.setS v).w = e.w := (rfl)
@[simp] theorem Engine.setS_a (e : Engine) (v : Table) : (e.setS v).a = e.a := (rfl)

@[simp] theorem Engine.setI_S (e : Engine) (v : Byte) : (e.setI v).S = e.S := (rfl)
@[simp] theorem Engine.setI_i (e : Engine) (v : Byte) : (e.setI v).i = v := (rfl)
@[simp] theorem Engine.setI_j (e : Engine) (v : Byte) : (e.setI v).j = e.j := (rfl)
@[simp] theorem Engine.setI_k (e : Engine) (v : Byte) : (e.setI v).k = e.k := (rfl)
@[simp] theorem Engine.setI_z (e : Engine) (v : Byte) : (e.setI v).z = e.z := (rfl)
@[simp] theorem Engine.setI_w (e : Engine) (v : Byte) : (e.setI v).w = e.w := (rfl)
@[simp] theorem Engine.setI_a (e : Engine) (v : Byte) : (e.setI v).a = e.a := (rfl)

@[simp] theorem Engine.setJ_S (e : Engine) (v : Byte) : (e.setJ v).S = e.S := (rfl)
@[simp] theorem Engine.setJ_i (e : Engine) (v : Byte) : (e.setJ v).i = e.i := (rfl)
@[simp] theorem Engine.setJ_j (e : Engine) (v : Byte) : (e.setJ v).j = v := (rfl)
@[simp] theorem Engine.setJ_k (e : Engine) (v : Byte) : (e.setJ v).k = e.k := (rfl)
@[simp] theorem Engine.setJ_z (e : Engine) (v : Byte) : (e.setJ v).z = e.z := (rfl)
@[simp] theorem Engine.setJ_w (e : Engine) (v : Byte) : (e.setJ v).w = e.w := (rfl)
@[simp] theorem Engine.setJ_a (e : Engine) (v : Byte) : (e.setJ v).a = e.a := (rfl)

@[simp] theorem Engine.setK_S (e : Engine) (v : Byte) : (e.setK v).S = e.S := (rfl)
@[simp] theorem Engine.setK_i (e : Engine) (v : Byte) : (e.setK v).i = e.i := (rfl)
@[simp] theorem Engine.setK_j (e : Engine) (v : Byte) : (e.setK v).j = e.j := (rfl)
@[simp] theorem Engine.setK_k (e : Engine) (v : Byte) : (e.setK v).k = v := (rfl)
@[simp] theorem Engine.setK_z (e : Engine) (v : Byte) : (e.setK v).z = e.z := (rfl)
@[simp] theorem Engine.setK_w (e : Engine) (v : Byte) : (e.setK v).w = e.w := (rfl)
@[simp] theorem Engine.setK_a (e : Engine) (v : Byte) : (e.setK v).a = e.a := (rfl)

@[simp] theorem Engine.setZ_S (e : Engine) (v : Byte) : (e.setZ v).S = e.S := (rfl)
@[simp] theorem Engine.setZ_i (e : Engine) (v : Byte) : (e.setZ v).i = e.i := (rfl)
@[simp] theorem Engine.setZ_j (e : Engine) (v : Byte) : (e.setZ v).j = e.j := (rfl)
@[simp] theorem Engine.setZ_k (e : Engine) (v : Byte) : (e.setZ v).k = e.k := (rfl)
@[simp] theorem Engine.setZ_z (e : Engine) (v : Byte) : (e.setZ v).z = v := (rfl)
@[simp] theorem Engine.setZ_w (e : Engine) (v : Byte) : (e.setZ v).w = e.w := (rfl)
@[simp] theorem Engine.setZ_a (e : Engine) (v : Byte) : (e.setZ v).a = e.a := (rfl)

@[simp] theorem Engine.setW_S (e : Engine) (v : Byte) : (e.setW v).S = e.S := (rfl)
@[simp] theorem Engine.setW_i (e : Engine) (v : Byte) : (e.setW v).i = e.i := (rfl)
@[simp] theorem Engine.setW_j (e : Engine) (v : Byte) : (e.setW v).j = e.j := (rfl)
@[simp] theorem Engine.setW_k (e : Engine) (v : Byte) : (e.setW v).k = e.k := (rfl)
@[simp] theorem Engine.setW_z (e : Engine) (v : Byte) : (e.setW v).z = e.z := (rfl)
@[simp] theorem Engine.setW_w (e : Engine) (v : Byte) : (e.setW v).w = v := (rfl)
@[simp] theorem Engine.setW_a (e : Engine) (v : Byte) : (e.setW v).a = e.a := (rfl)

@[simp] theorem Engine.setA_S (e : Engine) (v : Byte) : (e.setA v).S = e.S := (rfl)
@[simp] theorem Engine.setA_i (e : Engine) (v : Byte) : (e.setA v).i = e.i := (rfl)
@[simp] theorem Engine.setA_j (e : Engine) (v : Byte) : (e.setA v).j = e.j := (rfl)
@[simp] theorem Engine.setA_k (e : Engine) (v : Byte) : (e.setA v).k = e.k := (rfl)
@[simp] theorem Engine.setA_z (e : Engine) (v : Byte) : (e.setA v).z = e.z := (rfl)
@[simp] theorem Engine.setA_w (e : Engine) (v : Byte) : (e.setA v).w = e.w := (rfl)
@[simp] theorem Engine.setA_a (e : Engine) (v : Byte) : (e.setA v).a = v := (rfl)

@[simp] theorem Engine.setI_read (e : Engine) (v p : Byte) : (e.setI v).read p = e.read p := (rfl)
@[simp] theorem Engine.setJ_read (e : Engine) (v p : Byte) : (e.setJ v).read p = e.read p := (rfl)
@[simp] theorem Engine.setK_read (e : Engine) (v p : Byte) : (e.setK v).read p = e.read p := (rfl)
@[simp] theorem Engine.setZ_read (e : Engine) (v p : Byte) : (e.setZ v).read p = e.read p := (rfl)
@[simp] theorem Engine.setW_read (e : Engine) (v p : Byte) : (e.setW v).read p = e.read p := (rfl)
@[simp] theorem Engine.setA_read (e : Engine) (v p : Byte) : (e.setA v).read p = e.read p := (rfl)

@[simp] theorem Engine.swap_i (e : Engine) (p q : Byte) : (e.swap p q).i = e.i := (rfl)
@[simp] theorem Engine.swap_j (e : Engine) (p q : Byte) : (e.swap p q).j = e.j := (rfl)
@[simp] theorem Engine.swap_k (e : Engine) (p q : Byte) : (e.swap p q).k = e.k := (rfl)
@[simp] theorem Engine.swap_z (e : Engine) (p q : Byte) : (e.swap p q).z = e.z := (rfl)
@[simp] theorem Engine.swap_w (e : Engine) (p q : Byte) : (e.swap p q).w = e.w := (rfl)
@[simp] theorem Engine.swap_a (e : Engine) (p q : Byte) : (e.swap p q).a = e.a := (rfl)
@[simp] theorem Engine.swap_S (e : Engine) (p q : Byte) : (e.swap p q).S = Table.swap e.S p q := (rfl)

@[simp] theorem State.setEngine_engine (s : State) (x : Engine) : (s.setEngine x).engine = x := (rfl)
@[simp] theorem State.setEngine_commandIn (s : State) (x : Engine) : (s.setEngine x).commandIn = s.commandIn := (rfl)
@[simp] theorem State.setEngine_statusOut (s : State) (x : Engine) : (s.setEngine x).statusOut = s.statusOut := (rfl)
@[simp] theorem State.setEngine_dataOut (s : State) (x : Engine) : (s.setEngine x).dataOut = s.dataOut := (rfl)
@[simp] theorem State.setEngine_resetIn (s : State) (x : Engine) : (s.setEngine x).resetIn = s.resetIn := (rfl)

@[simp] theorem State.setCommandIn_engine (s : State) (x : List Word) : (s.setCommandIn x).engine = s.engine := (rfl)
@[simp] theorem State.setCommandIn_commandIn (s : State) (x : List Word) : (s.setCommandIn x).commandIn = x := (rfl)
@[simp] theorem State.setCommandIn_statusOut (s : State) (x : List Word) : (s.setCommandIn x).statusOut = s.statusOut := (rfl)
@[simp] theorem State.setCommandIn_dataOut (s : State) (x : List Word) : (s.setCommandIn x).dataOut = s.dataOut := (rfl)
@[simp] theorem State.setCommandIn_resetIn (s : State) (x : List Word) : (s.setCommandIn x).resetIn = s.resetIn := (rfl)

@[simp] theorem State.setResetIn_engine (s : State) (x : Bool) : (s.setResetIn x).engine = s.engine := (rfl)
@[simp] theorem State.setResetIn_commandIn (s : State) (x : Bool) : (s.setResetIn x).commandIn = s.commandIn := (rfl)
@[simp] theorem State.setResetIn_statusOut (s : State) (x : Bool) : (s.setResetIn x).statusOut = s.statusOut := (rfl)
@[simp] theorem State.setResetIn_dataOut (s : State) (x : Bool) : (s.setResetIn x).dataOut = s.dataOut := (rfl)
@[simp] theorem State.setResetIn_resetIn (s : State) (x : Bool) : (s.setResetIn x).resetIn = x := (rfl)

@[simp] theorem State.respond_engine (s : State) (st : Status) (d : List Byte) : (s.respond st d).engine = s.engine := (rfl)
@[simp] theorem State.respond_commandIn (s : State) (st : Status) (d : List Byte) : (s.respond st d).commandIn = s.commandIn := (rfl)
@[simp] theorem State.respond_statusOut (s : State) (st : Status) (d : List Byte) : (s.respond st d).statusOut = s.statusOut ++ [st] := (rfl)
@[simp] theorem State.respond_dataOut (s : State) (st : Status) (d : List Byte) : (s.respond st d).dataOut = s.dataOut ++ d := (rfl)
@[simp] theorem State.respond_resetIn (s : State) (st : Status) (d : List Byte) : (s.respond st d).resetIn = s.resetIn := (rfl)

@[simp] theorem State.complete_engine (s : State) (r : Engine × List Byte) : (s.complete r).engine = r.1 := (rfl)
@[simp] theorem State.complete_commandIn (s : State) (r : Engine × List Byte) : (s.complete r).commandIn = s.commandIn := (rfl)
@[simp] theorem State.complete_statusOut (s : State) (r : Engine × List Byte) : (s.complete r).statusOut = s.statusOut ++ [.ok] := (rfl)
@[simp] theorem State.complete_dataOut (s : State) (r : Engine × List Byte) : (s.complete r).dataOut = s.dataOut ++ r.2 := (rfl)
@[simp] theorem State.complete_resetIn (s : State) (r : Engine × List Byte) : (s.complete r).resetIn = s.resetIn := (rfl)

@[simp] theorem State.raiseIllegal_engine (s : State) : (s.raiseIllegal).engine = s.engine := (rfl)
@[simp] theorem State.raiseIllegal_commandIn (s : State) : (s.raiseIllegal).commandIn = s.commandIn := (rfl)
@[simp] theorem State.raiseIllegal_statusOut (s : State) : (s.raiseIllegal).statusOut = s.statusOut ++ [.illegal] := (rfl)
@[simp] theorem State.raiseIllegal_dataOut (s : State) : (s.raiseIllegal).dataOut = s.dataOut := List.append_nil _
@[simp] theorem State.raiseIllegal_resetIn (s : State) : (s.raiseIllegal).resetIn = s.resetIn := (rfl)

@[simp] theorem State.takeReset_engine (s : State) : (s.takeReset).engine = Engine.reset := (rfl)
@[simp] theorem State.takeReset_commandIn (s : State) : (s.takeReset).commandIn = s.commandIn := (rfl)
@[simp] theorem State.takeReset_statusOut (s : State) : (s.takeReset).statusOut = s.statusOut := (rfl)
@[simp] theorem State.takeReset_dataOut (s : State) : (s.takeReset).dataOut = s.dataOut := (rfl)
@[simp] theorem State.takeReset_resetIn (s : State) : (s.takeReset).resetIn = false := (rfl)

@[simp] theorem State.offer_engine (s : State) (w : Word) : (s.offer w).engine = s.engine := (rfl)
@[simp] theorem State.offer_commandIn (s : State) (w : Word) : (s.offer w).commandIn = w :: s.commandIn := (rfl)
@[simp] theorem State.offer_statusOut (s : State) (w : Word) : (s.offer w).statusOut = s.statusOut := (rfl)
@[simp] theorem State.offer_dataOut (s : State) (w : Word) : (s.offer w).dataOut = s.dataOut := (rfl)
@[simp] theorem State.offer_resetIn (s : State) (w : Word) : (s.offer w).resetIn = false := (rfl)

@[simp] theorem State.hostSend_engine (s : State) (w : Word) : (s.hostSend w).engine = s.engine := (rfl)
@[simp] theorem State.hostSend_commandIn (s : State) (w : Word) : (s.hostSend w).commandIn = s.commandIn ++ [w] := (rfl)
@[simp] theorem State.hostSend_statusOut (s : State) (w : Word) : (s.hostSend w).statusOut = s.statusOut := (rfl)
@[simp] theorem State.hostSend_dataOut (s : State) (w : Word) : (s.hostSend w).dataOut = s.dataOut := (rfl)
@[simp] theorem State.hostSend_resetIn (s : State) (w : Word) : (s.hostSend w).resetIn = s.resetIn := (rfl)

@[simp] theorem State.hostSendAll_engine (s : State) (ws : List Word) : (s.hostSendAll ws).engine = s.engine := (rfl)
@[simp] theorem State.hostSendAll_commandIn (s : State) (ws : List Word) : (s.hostSendAll ws).commandIn = s.commandIn ++ ws := (rfl)
@[simp] theorem State.hostSendAll_statusOut (s : State) (ws : List Word) : (s.hostSendAll ws).statusOut = s.statusOut := (rfl)
@[simp] theorem State.hostSendAll_dataOut (s : State) (ws : List Word) : (s.hostSendAll ws).dataOut = s.dataOut := (rfl)
@[simp] theorem State.hostSendAll_resetIn (s : State) (ws : List Word) : (s.hostSendAll ws).resetIn = s.resetIn := (rfl)

@[simp] theorem State.hostReset_engine (s : State) : (s.hostReset).engine = s.engine := (rfl)
@[simp] theorem State.hostReset_commandIn (s : State) : (s.hostReset).commandIn = s.commandIn := (rfl)
@[simp] theorem State.hostReset_statusOut (s : State) : (s.hostReset).statusOut = s.statusOut := (rfl)
@[simp] theorem State.hostReset_dataOut (s : State) : (s.hostReset).dataOut = s.dataOut := (rfl)
@[simp] theorem State.hostReset_resetIn (s : State) : (s.hostReset).resetIn = true := (rfl)

/-- Two engines with the same seven items are the same (R20). -/
theorem Engine.ext {e e' : Engine} (hS : e.S = e'.S) (hi : e.i = e'.i) (hj : e.j = e'.j) (hk : e.k = e'.k) (hz : e.z = e'.z)
    (hw : e.w = e'.w) (ha : e.a = e'.a) : e = e' := by
  cases e; cases e'; simp_all

end Sys2Proof.Machine
end

