-- ==== Sys2Proof/Laws/Table.lean ====
section
/-!
SUPPORT. The laws of the table as memory: read after write, the canonical form, and what a swap does to a permutation.
-/

namespace Sys2Proof.Machine

/-- Addresses strictly rising. -/
abbrev Table.Sorted (t : Table) : Prop := t.Pairwise fun c d => c.1 < d.1

theorem Table.wf_iff (t : Table) :
    Table.wf t = true ↔ Table.Sorted t ∧ ∀ c ∈ t, c.1 < 256 ∧ c.2 ≠ Table.unlisted c.1 := by
  simp only [Table.wf, Bool.and_eq_true, decide_eq_true_eq, List.all_eq_true, bne_iff_ne]
  exact Iff.rfl

theorem Table.Sorted.of_wf {t : Table} (h : Table.wf t = true) : Table.Sorted t := ((Table.wf_iff t).mp h).1

@[simp] theorem Table.identity_wf : Table.wf Table.identity = true := by decide

@[simp] theorem Table.identity_isPermutation : Table.isPermutation Table.identity = true := by decide

@[simp] theorem Table.read_identity (p : Byte) : Table.read Table.identity p = p := by
  simp [Table.read, Table.identity, Table.lookup, Table.unlisted]

/-! ### Lookup -/

/-- A location below every listed one is unlisted. -/
theorem Table.lookup_of_forall_lt {t : Table} {n : Nat} (h : ∀ c ∈ t, n < c.1) : Table.lookup t n = Table.unlisted n := by
  induction t with
  | nil => rfl
  | cons c r ih =>
    have hc : n < c.1 := h c (by simp)
    rw [Table.lookup, if_neg (by omega)]
    exact ih fun d hd => h d (by simp [hd])

/-- A location that is not listed reads as unlisted. -/
theorem Table.lookup_of_not_mem {t : Table} {n : Nat} (h : n ∉ t.map Prod.fst) : Table.lookup t n = Table.unlisted n := by
  induction t with
  | nil => rfl
  | cons c r ih =>
    simp only [List.map_cons, List.mem_cons, not_or] at h
    rw [Table.lookup, if_neg h.1]
    exact ih h.2

/-- A listed location reads as listed. -/
theorem Table.lookup_of_mem {t : Table} (hs : Table.Sorted t) {n : Nat} {u : Byte} (h : (n, u) ∈ t) :
    Table.lookup t n = u := by
  induction t with
  | nil => simp at h
  | cons c r ih =>
    obtain ⟨hc, hr⟩ := List.pairwise_cons.mp hs
    rcases List.mem_cons.mp h with rfl | h
    · simp [Table.lookup]
    · have : c.1 < n := hc _ h
      rw [Table.lookup, if_neg (by omega)]
      exact ih hr h

/-- Read after store: the stored byte at its location, every other location as before. -/
theorem Table.lookup_store {t : Table} (hs : Table.Sorted t) (n : Nat) (v : Byte) (m : Nat) :
    Table.lookup (Table.store t n v) m = if m = n then v else Table.lookup t m := by
  induction t with
  | nil =>
    by_cases hv : v = Table.unlisted n <;> by_cases hm : m = n <;> simp [Table.store, Table.lookup, hv, hm]
  | cons c r ih =>
    obtain ⟨k, u⟩ := c
    obtain ⟨hc, hr⟩ := List.pairwise_cons.mp hs
    simp only [Table.store]
    by_cases h1 : k < n
    · rw [if_pos h1, Table.lookup, ih hr, Table.lookup]
      by_cases hmk : m = k
      · rw [if_pos hmk, if_pos hmk, if_neg (by omega)]
      · rw [if_neg hmk, if_neg hmk]
    · rw [if_neg h1]
      by_cases h2 : k = n
      · rw [if_pos h2, Table.lookup, h2]
        by_cases hv : v = Table.unlisted n
        · rw [if_pos hv]
          by_cases hmn : m = n
          · rw [if_pos hmn, hmn, Table.lookup_of_forall_lt (fun d hd => h2 ▸ hc d hd), hv]
          · rw [if_neg hmn, if_neg hmn]
        · rw [if_neg hv, Table.lookup]
          by_cases hmn : m = n
          · rw [if_pos hmn, if_pos hmn]
          · rw [if_neg hmn, if_neg hmn, if_neg hmn]
      · rw [if_neg h2]
        by_cases hv : v = Table.unlisted n
        · rw [if_pos hv]
          by_cases hmn : m = n
          · have hlt : ∀ d ∈ (k, u) :: r, n < d.1 := by
              intro d hd
              rcases List.mem_cons.mp hd with rfl | hd
              · exact lt_of_le_of_ne (not_lt.mp h1) (Ne.symm h2)
              · have : k < d.1 := hc d hd
                omega
            rw [if_pos hmn, hmn, Table.lookup_of_forall_lt hlt, hv]
          · rw [if_neg hmn]
        · rw [if_neg hv, Table.lookup]

/-! ### The canonical form is kept -/

/-- What `store` lists: the stored pair, or a pair listed before. -/
theorem Table.mem_store {t : Table} {n : Nat} {v : Byte} {c : Host.Cell} (h : c ∈ Table.store t n v) :
    (c = (n, v) ∧ v ≠ Table.unlisted n) ∨ c ∈ t := by
  induction t with
  | nil =>
    simp only [Table.store] at h
    split_ifs at h with hv
    · simp at h
    · exact .inl ⟨List.mem_singleton.mp h, hv⟩
  | cons d r ih =>
    obtain ⟨k, u⟩ := d
    simp only [Table.store] at h
    split_ifs at h with h1 h2 h3 h3
    · rcases List.mem_cons.mp h with rfl | h
      · simp
      · exact (ih h).imp id (List.mem_cons_of_mem _)
    · exact .inr (List.mem_cons_of_mem _ h)
    · rcases List.mem_cons.mp h with rfl | h
      · exact .inl ⟨rfl, h3⟩
      · exact .inr (List.mem_cons_of_mem _ h)
    · exact .inr h
    · rcases List.mem_cons.mp h with rfl | h
      · exact .inl ⟨rfl, h3⟩
      · exact .inr h

theorem Table.sorted_store {t : Table} (hs : Table.Sorted t) (n : Nat) (v : Byte) : Table.Sorted (Table.store t n v) := by
  induction t with
  | nil => by_cases hv : v = Table.unlisted n <;> simp [Table.store, hv]
  | cons d r ih =>
    obtain ⟨k, u⟩ := d
    obtain ⟨hc, hr⟩ := List.pairwise_cons.mp hs
    simp only [Table.store]
    split_ifs with h1 h2 h3 h3
    · refine List.pairwise_cons.mpr ⟨fun c hcm => ?_, ih hr⟩
      rcases Table.mem_store hcm with ⟨rfl, -⟩ | hm
      · exact h1
      · exact hc c hm
    · exact hr
    · subst h2; exact List.pairwise_cons.mpr ⟨hc, hr⟩
    · exact hs
    · refine List.pairwise_cons.mpr ⟨fun c hcm => ?_, hs⟩
      have hnk : n < k := lt_of_le_of_ne (not_lt.mp h1) (Ne.symm h2)
      rcases List.mem_cons.mp hcm with rfl | hm
      · exact hnk
      · exact hnk.trans (hc c hm)

/-- A write keeps the canonical form. -/
theorem Table.wf_write {t : Table} (h : Table.wf t = true) (p v : Byte) : Table.wf (Table.write t p v) = true := by
  obtain ⟨hs, ha⟩ := (Table.wf_iff t).mp h
  refine (Table.wf_iff _).mpr ⟨Table.sorted_store hs _ _, fun c hc => ?_⟩
  rcases Table.mem_store hc with ⟨rfl, hv⟩ | hm
  · exact ⟨p.isLt, hv⟩
  · exact ha c hm

/-- A swap keeps the canonical form. -/
theorem Table.wf_swap {t : Table} (h : Table.wf t = true) (p q : Byte) : Table.wf (Table.swap t p q) = true :=
  Table.wf_write (Table.wf_write h _ _) _ _

/-! ### Reading and writing (R41) -/

/-- MemRead after MemWrite: the value written at its location, every other location as before. -/
theorem Table.read_write {t : Table} (h : Table.wf t = true) (p v x : Byte) :
    Table.read (Table.write t p v) x = if x = p then v else Table.read t x := by
  rw [Table.read, Table.write, Table.lookup_store (Table.Sorted.of_wf h)]
  simp [Table.read, BitVec.toNat_inj]

/-- What a swap leaves at every location (R13). -/
theorem Table.read_swap {t : Table} (h : Table.wf t = true) (p q x : Byte) :
    Table.read (Table.swap t p q) x = if x = q then Table.read t p else if x = p then Table.read t q else Table.read t x := by
  rw [Table.swap, Table.read_write (Table.wf_write h _ _), Table.read_write h]

/-- A swap read through the exchange of its two locations. -/
theorem Table.read_swap_eq {t : Table} (h : Table.wf t = true) (p q x : Byte) :
    Table.read (Table.swap t p q) x = Table.read t (Equiv.swap p q x) := by
  rw [Table.read_swap h, Equiv.swap_apply_def]
  by_cases hq : x = q <;> by_cases hp : x = p <;> simp_all

/-! ### Equal reads make equal tables -/

/-- In the canonical form a listed location is one that does not read as unlisted. -/
theorem Table.mem_iff {t : Table} (h : Table.wf t = true) (c : Host.Cell) :
    c ∈ t ↔ c.2 = Table.lookup t c.1 ∧ c.2 ≠ Table.unlisted c.1 := by
  obtain ⟨hs, ha⟩ := (Table.wf_iff t).mp h
  constructor
  · exact fun hc => ⟨(Table.lookup_of_mem hs hc).symm, (ha c hc).2⟩
  · rintro ⟨h1, h2⟩
    by_contra hc
    have : c.1 ∉ t.map Prod.fst := by
      intro hm
      obtain ⟨d, hd, hdc⟩ := List.mem_map.mp hm
      have : Table.lookup t d.1 = d.2 := Table.lookup_of_mem hs hd
      rw [hdc, ← h1] at this
      exact hc (by rwa [show c = d from Prod.ext hdc.symm this])
    exact h2 (h1.trans (Table.lookup_of_not_mem this))

/-- Two tables in the canonical form that read alike at every address are equal: one machine memory, one datum. -/
theorem Table.ext_of_read {t t' : Table} (h : Table.wf t = true) (h' : Table.wf t' = true)
    (hr : ∀ p, Table.read t p = Table.read t' p) : t = t' := by
  have hl : ∀ c : Host.Cell, c ∈ t ↔ c ∈ t' := by
    intro c
    by_cases hc : c.1 < 256
    · have := hr (BitVec.ofNat 8 c.1)
      simp only [Table.read, BitVec.toNat_ofNat, Nat.mod_eq_of_lt (show c.1 < 2 ^ 8 from hc)] at this
      rw [Table.mem_iff h, Table.mem_iff h', this]
    · exact ⟨fun hm => absurd (((Table.wf_iff t).mp h).2 c hm).1 hc, fun hm => absurd (((Table.wf_iff t').mp h').2 c hm).1 hc⟩
  have hs := Table.Sorted.of_wf h
  have hs' := Table.Sorted.of_wf h'
  have nd : ∀ {u : Table}, Table.Sorted u → u.Nodup := fun hu => hu.imp fun hab he => absurd (he ▸ hab) (lt_irrefl _)
  exact List.Perm.eq_of_pairwise (fun a b _ _ hab hba => absurd (hab.trans hba) (lt_irrefl _)) hs hs'
    ((List.perm_ext_iff_of_nodup (nd hs) (nd hs')).mpr hl)

/-! ### Permutations (R22) -/

/-- The listed addresses are distinct. -/
theorem Table.nodup_addresses {t : Table} (hs : Table.Sorted t) : (t.map Prod.fst).Nodup :=
  List.pairwise_map.mpr (hs.imp fun hab he => absurd (he ▸ hab) (lt_irrefl _))

/-- R22 in its own words: the check of the listed bytes says that no two locations hold the same byte. -/
theorem Table.isPermutation_iff {t : Table} (h : Table.wf t = true) :
    Table.isPermutation t = true ↔ Function.Injective (Table.read t) := by
  obtain ⟨hs, ha⟩ := (Table.wf_iff t).mp h
  set f : Nat → Nat := fun n => (Table.lookup t n).toNat with hf
  set A := t.map Prod.fst with hA
  have hAlt : ∀ n ∈ A, n < 256 := fun n hn => by
    obtain ⟨c, hc, rfl⟩ := List.mem_map.mp hn
    exact (ha c hc).1
  have hV : t.map (fun c => c.2.toNat) = A.map f := by
    rw [hA, List.map_map]
    refine List.map_congr_left fun c hc => ?_
    simp [hf, Table.lookup_of_mem hs hc]
  have hoff : ∀ n, n < 256 → n ∉ A → f n = n := fun n hn hnA => by
    simp only [hf, Table.lookup_of_not_mem hnA, Table.unlisted, BitVec.toNat_ofNat]
    exact Nat.mod_eq_of_lt hn
  have hlt : ∀ n, f n < 256 := fun n => (Table.lookup t n).isLt
  have hread : ∀ p : Byte, (Table.read t p).toNat = f p.toNat := fun p => rfl
  have hAnd : A.Nodup := Table.nodup_addresses hs
  rw [Table.isPermutation, List.isPerm_iff, hV]
  constructor
  · intro hp x y hxy
    have hxy' : f x.toNat = f y.toNat := by rw [← hread, ← hread, hxy]
    have hinj : ∀ a ∈ A, ∀ b ∈ A, f a = f b → a = b := fun a ha b hb hab =>
      List.inj_on_of_nodup_map ((hp.nodup_iff).mpr hAnd) ha hb hab
    have hmaps : ∀ a ∈ A, f a ∈ A := fun a ha => hp.mem_iff.mp (List.mem_map_of_mem ha)
    apply BitVec.eq_of_toNat_eq
    by_cases hx : x.toNat ∈ A <;> by_cases hy : y.toNat ∈ A
    · exact hinj _ hx _ hy hxy'
    · have := hmaps _ hx
      rw [hxy', hoff _ y.isLt hy] at this
      exact absurd this hy
    · have := hmaps _ hy
      rw [← hxy', hoff _ x.isLt hx] at this
      exact absurd this hx
    · rwa [hoff _ x.isLt hx, hoff _ y.isLt hy] at hxy'
  · intro hinj
    have hfinj : ∀ a, a < 256 → ∀ b, b < 256 → f a = f b → a = b := by
      intro a ha b hb hab
      have key : Table.read t (BitVec.ofNat 8 a) = Table.read t (BitVec.ofNat 8 b) := by
        apply BitVec.eq_of_toNat_eq
        rw [hread, hread, BitVec.toNat_ofNat, BitVec.toNat_ofNat, Nat.mod_eq_of_lt (show a < 2 ^ 8 from ha),
          Nat.mod_eq_of_lt (show b < 2 ^ 8 from hb), hab]
      have := congrArg BitVec.toNat (hinj key)
      rwa [BitVec.toNat_ofNat, BitVec.toNat_ofNat, Nat.mod_eq_of_lt (show a < 2 ^ 8 from ha),
        Nat.mod_eq_of_lt (show b < 2 ^ 8 from hb)] at this
    have hVnd : (A.map f).Nodup :=
      List.Nodup.map_on (fun a ha b hb hab => hfinj a (hAlt a ha) b (hAlt b hb) hab) hAnd
    have hsub : A.map f ⊆ A := by
      intro x hx
      obtain ⟨n, hn, rfl⟩ := List.mem_map.mp hx
      by_contra hnot
      have hfix := hoff (f n) (hlt n) hnot
      rw [hfinj (f n) (hlt n) n (hAlt n hn) hfix] at hnot
      exact hnot hn
    exact (List.subperm_of_subset hVnd hsub).perm_of_length_le (by simp)

/-- A permutation of the 256 byte values is a bijection of them. -/
theorem Table.bijective_read {t : Table} (h : Table.wf t = true) (hp : Table.isPermutation t = true) :
    Function.Bijective (Table.read t) :=
  Finite.injective_iff_bijective.mp ((Table.isPermutation_iff h).mp hp)

/-- A swap of two entries of a permutation leaves a permutation (R22). -/
theorem Table.isPermutation_swap {t : Table} (h : Table.wf t = true) (hp : Table.isPermutation t = true) (p q : Byte) :
    Table.isPermutation (Table.swap t p q) = true := by
  refine (Table.isPermutation_iff (Table.wf_swap h p q)).mpr ?_
  have hread : Table.read (Table.swap t p q) = Table.read t ∘ Equiv.swap p q := funext (Table.read_swap_eq h p q)
  rw [hread]
  exact ((Table.isPermutation_iff h).mp hp).comp (Equiv.injective _)

end Sys2Proof.Machine
end

