-- ==== Sys2Proof/Laws/Engine.lean ====
section
/-!
SUPPORT. What each procedure of the engine can do, said once: the registers it leaves, the registers it computes, and that the
table stays a permutation in its canonical form.
-/

namespace Sys2Proof.Machine

/-- The table is in its canonical form and a permutation (R22). -/
def Engine.TableOk (e : Engine) : Prop := Table.wf e.S = true ∧ Table.isPermutation e.S = true

theorem Engine.valid_iff (e : Engine) :
    e.valid = true ↔ e.TableOk ∧ e.w.getLsbD 0 = true ∧ e.a ≤ 128#8 := by
  simp only [Engine.valid, Engine.TableOk, Bool.and_eq_true, decide_eq_true_eq]
  exact and_assoc

theorem Engine.reset_valid : Engine.reset.valid = true := by decide

/-- The table does not change, so it stays a permutation. -/
theorem Engine.TableOk.congr {e e' : Engine} (h : e.TableOk) (hS : e'.S = e.S) : e'.TableOk := by
  rw [Engine.TableOk, hS]; exact h

theorem Engine.TableOk.bijective {e : Engine} (h : e.TableOk) : Function.Bijective e.read :=
  Table.bijective_read h.1 h.2

/-! ### Swap (R13) -/

theorem Engine.swap_tableOk {e : Engine} (h : e.TableOk) (p q : Byte) : (e.swap p q).TableOk :=
  ⟨Table.wf_swap h.1 p q, Table.isPermutation_swap h.1 h.2 p q⟩

theorem Engine.read_swap {e : Engine} (h : e.TableOk) (p q x : Byte) :
    (e.swap p q).read x = if x = q then e.read p else if x = p then e.read q else e.read x :=
  Table.read_swap h.1 p q x

/-! ### Update (R113) and Output (R115) -/

@[simp] theorem Engine.update_i (e : Engine) : e.update.i = e.i + e.w := (rfl)
@[simp] theorem Engine.update_z (e : Engine) : e.update.z = e.z := (rfl)
@[simp] theorem Engine.update_w (e : Engine) : e.update.w = e.w := (rfl)
@[simp] theorem Engine.update_a (e : Engine) : e.update.a = e.a := (rfl)

theorem Engine.update_j (e : Engine) : e.update.j = e.k + e.read (e.j + e.read (e.i + e.w)) := rfl

theorem Engine.update_k (e : Engine) : e.update.k = e.update.i + e.k + e.read e.update.j := rfl

/-- The table after an update: the swap of the new `i` and the new `j`. -/
theorem Engine.update_S (e : Engine) : e.update.S = Table.swap e.S e.update.i e.update.j := rfl

theorem Engine.update_tableOk {e : Engine} (h : e.TableOk) : e.update.TableOk :=
  (Engine.swap_tableOk h _ _).congr (Engine.update_S e)

@[simp] theorem Engine.output_S (e : Engine) : e.output.S = e.S := (rfl)
@[simp] theorem Engine.output_i (e : Engine) : e.output.i = e.i := (rfl)
@[simp] theorem Engine.output_j (e : Engine) : e.output.j = e.j := (rfl)
@[simp] theorem Engine.output_k (e : Engine) : e.output.k = e.k := (rfl)
@[simp] theorem Engine.output_w (e : Engine) : e.output.w = e.w := (rfl)
@[simp] theorem Engine.output_a (e : Engine) : e.output.a = e.a := (rfl)

theorem Engine.output_z (e : Engine) : e.output.z = e.read (e.j + e.read (e.i + e.read (e.z + e.k))) := rfl

theorem Engine.output_tableOk {e : Engine} (h : e.TableOk) : e.output.TableOk := h.congr rfl

/-! ### Whip (R95) -/

@[simp] theorem Engine.updates_z (n : Nat) (e : Engine) : (e.updates n).z = e.z := by
  induction n generalizing e with
  | zero => rfl
  | succ n ih => simp [Engine.updates, ih]

@[simp] theorem Engine.updates_w (n : Nat) (e : Engine) : (e.updates n).w = e.w := by
  induction n generalizing e with
  | zero => rfl
  | succ n ih => simp [Engine.updates, ih]

@[simp] theorem Engine.updates_a (n : Nat) (e : Engine) : (e.updates n).a = e.a := by
  induction n generalizing e with
  | zero => rfl
  | succ n ih => simp [Engine.updates, ih]

theorem Engine.updates_tableOk {e : Engine} (h : e.TableOk) (n : Nat) : (e.updates n).TableOk := by
  induction n generalizing e with
  | zero => exact h
  | succ n ih => exact ih (Engine.update_tableOk h)

/-- `updates` is the iteration of `update`. -/
theorem Engine.updates_eq_iterate (n : Nat) (e : Engine) : e.updates n = Engine.update^[n] e := by
  induction n generalizing e with
  | zero => rfl
  | succ n ih => rw [Engine.updates, ih, Function.iterate_succ_apply]

/-- Every update adds the same `w` to `i`. -/
theorem Engine.updates_i (n : Nat) (e : Engine) : (e.updates n).i = e.i + BitVec.ofNat 8 n * e.w := by
  induction n generalizing e with
  | zero => simp [Engine.updates]
  | succ n ih =>
    rw [Engine.updates, ih, Engine.update_i, Engine.update_w, BitVec.ofNat_add, show (1#8 : Byte) = 1 from rfl]
    ring

@[simp] theorem Engine.whip_z (e : Engine) (r : Nat) : (e.whip r).z = e.z := by simp [Engine.whip]
@[simp] theorem Engine.whip_a (e : Engine) (r : Nat) : (e.whip r).a = e.a := by simp [Engine.whip]
theorem Engine.whip_w (e : Engine) (r : Nat) : (e.whip r).w = e.w + 2#8 := by simp [Engine.whip, Config.whipStep]

theorem Engine.whip_tableOk {e : Engine} (h : e.TableOk) (r : Nat) : (e.whip r).TableOk :=
  (Engine.updates_tableOk h r).congr rfl

/-! ### Crush (R96) -/

/-- One comparison: the pair in order, or as it was. -/
theorem Engine.crushPair_eq (e : Engine) (v : Byte) :
    e.crushPair v = if e.read (255#8 - v) < e.read v then e.swap v (255#8 - v) else e := by
  simp [Engine.crushPair, Engine.pairInverted]

theorem Engine.crushPair_tableOk {e : Engine} (h : e.TableOk) (v : Byte) : (e.crushPair v).TableOk := by
  rw [Engine.crushPair_eq]
  split
  · exact Engine.swap_tableOk h _ _
  · exact h

/-- The register part of an engine, which Crush leaves (R96). -/
theorem Engine.crushPair_registers (e : Engine) (v : Byte) :
    (e.crushPair v).i = e.i ∧ (e.crushPair v).j = e.j ∧ (e.crushPair v).k = e.k ∧ (e.crushPair v).z = e.z ∧
      (e.crushPair v).w = e.w ∧ (e.crushPair v).a = e.a := by
  rw [Engine.crushPair_eq]
  split <;> simp

/-- What holds before a pass of comparisons and survives each of them holds after the pass. -/
theorem Engine.crush_induction {P : Engine → Prop} {e : Engine} (h : P e) (hp : ∀ e v, P e → P (e.crushPair v)) : P e.crush := by
  unfold Engine.crush
  generalize List.range Config.crushPairs = vs
  induction vs generalizing e with
  | nil => exact h
  | cons v vs ih => exact ih (hp _ _ h)

theorem Engine.crush_tableOk {e : Engine} (h : e.TableOk) : e.crush.TableOk :=
  Engine.crush_induction h fun _ v h => Engine.crushPair_tableOk h v

/-- Crush writes only `S` (R96). -/
theorem Engine.crush_registers (e : Engine) :
    e.crush.i = e.i ∧ e.crush.j = e.j ∧ e.crush.k = e.k ∧ e.crush.z = e.z ∧ e.crush.w = e.w ∧ e.crush.a = e.a := by
  refine Engine.crush_induction (P := fun e' => e'.i = e.i ∧ e'.j = e.j ∧ e'.k = e.k ∧ e'.z = e.z ∧ e'.w = e.w ∧ e'.a = e.a)
    (by simp) fun e' v h => ?_
  obtain ⟨hi, hj, hk, hz, hw, ha⟩ := Engine.crushPair_registers e' v
  simp [hi, hj, hk, hz, hw, ha, h]

@[simp] theorem Engine.crush_i (e : Engine) : e.crush.i = e.i := (Engine.crush_registers e).1
@[simp] theorem Engine.crush_j (e : Engine) : e.crush.j = e.j := (Engine.crush_registers e).2.1
@[simp] theorem Engine.crush_k (e : Engine) : e.crush.k = e.k := (Engine.crush_registers e).2.2.1
@[simp] theorem Engine.crush_z (e : Engine) : e.crush.z = e.z := (Engine.crush_registers e).2.2.2.1
@[simp] theorem Engine.crush_w (e : Engine) : e.crush.w = e.w := (Engine.crush_registers e).2.2.2.2.1
@[simp] theorem Engine.crush_a (e : Engine) : e.crush.a = e.a := (Engine.crush_registers e).2.2.2.2.2

/-! ### Shuffle (R97) -/

/-- Shuffle as one expression. -/
theorem Engine.shuffle_eq (e : Engine) :
    e.shuffle = (((((e.whip Config.whipLength).crush).whip Config.whipLength).crush).whip Config.whipLength).setA 0#8 := by
  simp only [Engine.shuffle]

@[simp] theorem Engine.shuffle_a (e : Engine) : e.shuffle.a = 0#8 :=
  (congrArg Engine.a (Engine.shuffle_eq e)).trans (Engine.setA_a _ _)

@[simp] theorem Engine.shuffle_z (e : Engine) : e.shuffle.z = e.z := by simp [Engine.shuffle_eq]

theorem Engine.shuffle_w (e : Engine) : e.shuffle.w = e.w + 2#8 + 2#8 + 2#8 := by simp [Engine.shuffle_eq, Engine.whip_w]

theorem Engine.shuffle_tableOk {e : Engine} (h : e.TableOk) : e.shuffle.TableOk := by
  have h' := Engine.whip_tableOk (Engine.crush_tableOk (Engine.whip_tableOk (Engine.crush_tableOk
    (Engine.whip_tableOk h Config.whipLength)) Config.whipLength)) Config.whipLength
  rw [Engine.shuffle_eq]
  exact h'.congr (Engine.setA_S _ _)

theorem Engine.shuffle_valid {e : Engine} (h : e.valid = true) : e.shuffle.valid = true := by
  obtain ⟨ht, hw, -⟩ := (Engine.valid_iff e).mp h
  refine (Engine.valid_iff _).mpr ⟨Engine.shuffle_tableOk ht, ?_, by simp⟩
  rw [Engine.shuffle_w]
  have : ∀ w : Byte, w.getLsbD 0 = true → (w + 2#8 + 2#8 + 2#8).getLsbD 0 = true := by decide
  exact this _ hw

/-! ### Absorption (R85 to R89) -/

/-- The test of an absorption, in the words of R85. -/
theorem Engine.shuffleIfSaturated_eq (e : Engine) : e.shuffleIfSaturated = if e.a = 128#8 then e.shuffle else e := by
  simp [Engine.shuffleIfSaturated, Engine.saturated, Config.capacity]

/-- AbsorbNibble after its test: one swap and the increment (R85). -/
theorem Engine.absorbNibble_eq (e : Engine) (x : Nibble) :
    e.absorbNibble x = (e.shuffleIfSaturated.swap e.shuffleIfSaturated.a (128#8 + x.setWidth 8)).setA
      (e.shuffleIfSaturated.a + 1#8) := by
  simp only [Engine.absorbNibble, windowIndex, Config.nibbleBase, Engine.swap_a]

/-- AbsorbStop after its test: the increment (R89). -/
theorem Engine.absorbStop_eq (e : Engine) : e.absorbStop = e.shuffleIfSaturated.setA (e.shuffleIfSaturated.a + 1#8) := by
  simp only [Engine.absorbStop]

/-- The nibble window lies in 128..143 (R47). -/
theorem window_bounds (x : Nibble) : 128 ≤ (128#8 + x.setWidth 8 : Byte).toNat ∧ (128#8 + x.setWidth 8 : Byte).toNat < 144 := by
  revert x
  decide

/-- The test of an absorption leaves a valid engine with `a` at most 127 (R25). -/
theorem Engine.shuffleIfSaturated_valid {e : Engine} (h : e.valid = true) :
    e.shuffleIfSaturated.valid = true ∧ e.shuffleIfSaturated.a ≤ 127#8 := by
  unfold Engine.shuffleIfSaturated Engine.saturated Config.capacity
  split
  · exact ⟨Engine.shuffle_valid h, by simp⟩
  · rename_i hne
    have hle := ((Engine.valid_iff e).mp h).2.2
    exact ⟨h, by simp only [beq_iff_eq] at hne; bv_omega⟩

/-- The increment of an absorption stays in 0..128 (R25). -/
theorem Engine.increment_valid {e : Engine} (h : e.valid = true) (ha : e.a ≤ 127#8) : (e.setA (e.a + 1#8)).valid = true := by
  obtain ⟨ht, hw, -⟩ := (Engine.valid_iff e).mp h
  refine (Engine.valid_iff _).mpr ⟨ht.congr rfl, hw, ?_⟩
  rw [Engine.setA_a]
  bv_omega

theorem Engine.swap_valid {e : Engine} (h : e.valid = true) (p q : Byte) : (e.swap p q).valid = true := by
  obtain ⟨ht, hw, ha⟩ := (Engine.valid_iff e).mp h
  exact (Engine.valid_iff _).mpr ⟨Engine.swap_tableOk ht p q, hw, ha⟩

theorem Engine.absorbNibble_valid {e : Engine} (h : e.valid = true) (x : Nibble) : (e.absorbNibble x).valid = true :=
  have ⟨h1, h2⟩ := Engine.shuffleIfSaturated_valid h
  Engine.increment_valid (Engine.swap_valid h1 _ _) h2

theorem Engine.absorbStop_valid {e : Engine} (h : e.valid = true) : e.absorbStop.valid = true :=
  have ⟨h1, h2⟩ := Engine.shuffleIfSaturated_valid h
  Engine.increment_valid h1 h2

/-- ABSORB is two nibbles, low before high (R87). -/
theorem Engine.absorbByte_eq (e : Engine) (b : Byte) :
    e.absorbByte b = (e.absorbNibble (lowNibble b)).absorbNibble (highNibble b) := rfl

theorem Engine.absorbByte_valid {e : Engine} (h : e.valid = true) (b : Byte) : (e.absorbByte b).valid = true :=
  Engine.absorbNibble_valid (Engine.absorbNibble_valid h _) _

/-! ### Extraction (R105, R106) -/

theorem Engine.update_valid {e : Engine} (h : e.valid = true) : e.update.valid = true := by
  obtain ⟨ht, hw, ha⟩ := (Engine.valid_iff e).mp h
  exact (Engine.valid_iff _).mpr ⟨Engine.update_tableOk ht, hw, ha⟩

theorem Engine.output_valid {e : Engine} (h : e.valid = true) : e.output.valid = true := h

/-- The test of an extraction, in the words of R105. -/
theorem Engine.shuffleIfUnflushed_eq (e : Engine) : e.shuffleIfUnflushed = if 0#8 < e.a then e.shuffle else e := by
  simp [Engine.shuffleIfUnflushed, Engine.unflushed]

theorem Engine.shuffleIfUnflushed_valid {e : Engine} (h : e.valid = true) : e.shuffleIfUnflushed.valid = true := by
  unfold Engine.shuffleIfUnflushed
  split
  · exact Engine.shuffle_valid h
  · exact h

/-- After the test of an extraction `a` is 0 (R108). -/
@[simp] theorem Engine.shuffleIfUnflushed_a (e : Engine) : e.shuffleIfUnflushed.a = 0#8 := by
  unfold Engine.shuffleIfUnflushed Engine.unflushed
  split
  · simp
  · rename_i h
    simp only [decide_eq_true_eq] at h
    bv_omega

@[simp] theorem Engine.shuffleIfUnflushed_z (e : Engine) : e.shuffleIfUnflushed.z = e.z := by
  unfold Engine.shuffleIfUnflushed
  split <;> simp

theorem Engine.emitBytes_zero (e : Engine) : e.emitBytes 0 = (e, []) := rfl

/-- One more pair at the front: its byte is the first one emitted (R106). -/
theorem Engine.emitBytes_succ (n : Nat) (e : Engine) :
    e.emitBytes (n + 1) = ((e.update.output.emitBytes n).1, e.update.output.z :: (e.update.output.emitBytes n).2) := rfl

@[simp] theorem Engine.emitBytes_a (n : Nat) (e : Engine) : (e.emitBytes n).1.a = e.a := by
  induction n generalizing e with
  | zero => rfl
  | succ n ih => simp [Engine.emitBytes_succ, ih]

@[simp] theorem Engine.emitBytes_w (n : Nat) (e : Engine) : (e.emitBytes n).1.w = e.w := by
  induction n generalizing e with
  | zero => rfl
  | succ n ih => simp [Engine.emitBytes_succ, ih]

@[simp] theorem Engine.emitBytes_length (n : Nat) (e : Engine) : (e.emitBytes n).2.length = n := by
  induction n generalizing e with
  | zero => rfl
  | succ n ih => simp [Engine.emitBytes_succ, ih]

theorem Engine.emitBytes_valid {e : Engine} (h : e.valid = true) (n : Nat) : (e.emitBytes n).1.valid = true := by
  induction n generalizing e with
  | zero => exact h
  | succ n ih => exact ih (Engine.output_valid (Engine.update_valid h))

theorem Engine.squeeze_valid {e : Engine} (h : e.valid = true) (n : Nat) : (e.squeeze n).1.valid = true :=
  Engine.emitBytes_valid (Engine.shuffleIfUnflushed_valid h) n

/-! ### Initialisation (R80) -/

/-- INIT leaves the reset state whatever was there before (R80, R150). -/
theorem Engine.initialise_eq (e : Engine) : e.initialise = Engine.reset := rfl

end Sys2Proof.Machine
end

