-- ==== Sys2Proof/Laws/Machine.lean ====
section
/-!
SUPPORT. What a meaning, a command word and a step can answer.
-/

namespace Sys2Proof.Machine

/-- A legal command in a valid state completes (R130). -/
theorem State.perform_of_valid {s : State} (h : s.Inv) (f : Engine → Engine × List Byte) :
    s.perform f = .next (s.complete (f s.engine)) := if_pos h

/-- What a command that answers a next state did: the state was valid, and this is the next one. -/
theorem State.perform_next {s t : State} {f : Engine → Engine × List Byte} (h : s.perform f = .next t) :
    s.Inv ∧ t = s.complete (f s.engine) := by
  unfold State.perform at h
  split at h
  · rename_i hv
    exact ⟨hv, (Host.Outcome.next.inj h).symm⟩
  · cases h

/-- The end of a command is one response (R70). -/
theorem State.complete_answers (s : State) (r : Engine × List Byte) : s.Answers (s.complete r) .ok r.2 :=
  ⟨rfl, rfl, rfl, rfl⟩

/-- An illegal command is one response without data (R131). -/
theorem State.raiseIllegal_answers (s : State) : s.Answers s.raiseIllegal .illegal [] :=
  ⟨rfl, rfl, rfl, rfl⟩

/-- The whole effect of a legal command on the engine and what it emits, one case per row of R63. -/
def effect (i : Instr) (e : Engine) : Engine × List Byte :=
  match i with
  | .init => (e.initialise, [])
  | .absorb b => (e.absorbByte b, [])
  | .absorbn x => (e.absorbNibble x, [])
  | .abstop => (e.absorbStop, [])
  | .shuffle => (e.shuffle, [])
  | .drip => (e.drip, [e.drip.z])
  | .squeeze r => e.squeeze (countOf r)
  | .update => (e.update, [])
  | .output => (e.output, [e.output.z])
  | .hfin r => e.hashTail r

/-- The effect of a command keeps the invariants (R22, R24, R25). -/
theorem effect_valid {e : Engine} (h : e.valid = true) (i : Instr) : (effect i e).1.valid = true := by
  cases i with
  | init => exact Engine.reset_valid
  | absorb b => exact Engine.absorbByte_valid h b
  | absorbn x => exact Engine.absorbNibble_valid h x
  | abstop => exact Engine.absorbStop_valid h
  | shuffle => exact Engine.shuffle_valid h
  | drip => exact Engine.output_valid (Engine.update_valid (Engine.shuffleIfUnflushed_valid h))
  | squeeze r => exact Engine.squeeze_valid h _
  | update => exact Engine.update_valid h
  | output => exact Engine.output_valid h
  | hfin r => exact Engine.squeeze_valid (Engine.absorbByte_valid (Engine.absorbStop_valid h) _) _

/-- The number of bytes a command emits (R63, R70). -/
theorem effect_length (e : Engine) (i : Instr) : (effect i e).2.length = dataBytes (.ok i) := by
  cases i <;> simp [effect, dataBytes, Engine.squeeze, Engine.hashTail, countOf]

theorem exec_init (s : State) : exec .init s = .next (s.complete (effect .init s.engine)) := rfl

/-- Every meaning but INIT's is its effect, performed in a valid state. -/
theorem exec_eq_perform {i : Instr} (hi : i ≠ .init) (s : State) : exec i s = s.perform (effect i) := by
  cases i <;> first | exact absurd rfl hi | rfl

/-- Every legal command completes in a valid state, with its effect (R130). -/
theorem exec_of_inv {s : State} (h : s.Inv) (i : Instr) : exec i s = .next (s.complete (effect i s.engine)) := by
  by_cases hi : i = .init
  · rw [hi, exec_init]
  · rw [exec_eq_perform hi, State.perform_of_valid h]

/-- What a command that answers a next state did. -/
theorem exec_next {s t : State} {i : Instr} (h : exec i s = .next t) : t = s.complete (effect i s.engine) := by
  by_cases hi : i = .init
  · rw [hi, exec_init] at h
    rw [hi]
    exact (Host.Outcome.next.inj h).symm
  · rw [exec_eq_perform hi] at h
    exact (State.perform_next h).2

/-- The cases of a command word (R64). -/
theorem runWord_of_ok {cmd : Word} {i : Instr} (h : decode cmd = .ok i) (s : State) : runWord cmd s = exec i s := by
  rw [runWord, h]

theorem runWord_of_illegal {cmd : Word} {r : Illegal} (h : decode cmd = .illegal r) (s : State) :
    runWord cmd s = .next s.raiseIllegal := by
  rw [runWord, h]

/-- The cases of a step. -/
theorem step_of_reset {s : State} (h : s.resetIn = true) : step s = .next s.takeReset := if_pos h

theorem step_of_idle {s : State} (h : s.Ready []) : step s = .next s := by
  simp [step, State.advance, h.1, State.accept, h.2]

theorem step_of_word {s : State} {cmd : Word} {rest : List Word} (h : s.Ready (cmd :: rest)) :
    step s = runWord cmd (s.setCommandIn rest) := by
  simp [step, State.advance, h.1, State.accept, h.2]

/-- Everything a step that answers a next state can have done: served reset, idled, refused an illegal word, or executed. -/
theorem step_next {s t : State} (h : step s = .next t) :
    (s.resetIn = true ∧ t = s.takeReset) ∨ (s.Ready [] ∧ t = s) ∨
      ∃ cmd rest, s.Ready (cmd :: rest) ∧
        ((∃ r, decode cmd = .illegal r ∧ t = (s.setCommandIn rest).raiseIllegal) ∨
          ∃ i, decode cmd = .ok i ∧ exec i (s.setCommandIn rest) = .next t) := by
  by_cases hr : s.resetIn = true
  · rw [step_of_reset hr] at h
    exact .inl ⟨hr, (Host.Outcome.next.inj h).symm⟩
  · have hr' : s.resetIn = false := by simpa using hr
    cases hc : s.commandIn with
    | nil =>
      rw [step_of_idle ⟨hr', hc⟩] at h
      exact .inr (.inl ⟨⟨hr', hc⟩, (Host.Outcome.next.inj h).symm⟩)
    | cons cmd rest =>
      rw [step_of_word ⟨hr', hc⟩] at h
      refine .inr (.inr ⟨cmd, rest, ⟨hr', hc⟩, ?_⟩)
      cases hd : decode cmd with
      | illegal r =>
        rw [runWord_of_illegal hd] at h
        exact .inl ⟨r, rfl, (Host.Outcome.next.inj h).symm⟩
      | ok i =>
        rw [runWord_of_ok hd] at h
        exact .inr ⟨i, rfl, h⟩

/-- A run begins with its first step. -/
theorem core_run_succ {s t : State} (n : Nat) (h : step s = .next t) : Sys2Proof.core.run (n + 1) s = Sys2Proof.core.run n t := by
  have h' : Sys2Proof.core.step s = .next t := h
  simp only [Host.Core.run, h']

/-- The effect of several commands one after the other, their bytes joined. -/
def effects : List Instr → Engine → Engine × List Byte
  | [], e => (e, [])
  | i :: is, e => ((effects is (effect i e).1).1, (effect i e).2 ++ (effects is (effect i e).1).2)

theorem effects_append (is js : List Instr) (e : Engine) :
    effects (is ++ js) e = ((effects js (effects is e).1).1, (effects is e).2 ++ (effects js (effects is e).1).2) := by
  induction is generalizing e with
  | nil => simp [effects]
  | cons i is ih => simp [effects, ih]

/-- Absorbing the bytes of a message, command by command (R88). -/
theorem effects_absorb (m : List Byte) (e : Engine) : effects (m.map .absorb) e = (e.absorbBytes m, []) := by
  induction m generalizing e with
  | nil => rfl
  | cons b m ih =>
    simp only [List.map_cons, effects, ih]
    rfl

/-- A run over the words of legal commands, from a valid state: their effects, one status OK each, the words behind them left. -/
theorem runs_of_decode (cmds : List Word) (is : List Instr) (hd : cmds.map decode = is.map .ok) (rest : List Word) (s : State)
    (hs : s.Inv) (hr : s.Ready (cmds ++ rest)) :
    ∃ t, runs cmds.length s = .next t ∧ t.Ready rest ∧ t.Inv ∧ t.engine = (effects is s.engine).1 ∧
      t.statusOut = s.statusOut ++ List.replicate cmds.length .ok ∧ t.dataOut = s.dataOut ++ (effects is s.engine).2 := by
  induction cmds generalizing is s with
  | nil =>
    cases is with
    | nil => exact ⟨s, rfl, hr, hs, rfl, by simp, by simp [effects]⟩
    | cons i is => cases hd
  | cons cmd cmds ih =>
    cases is with
    | nil => cases hd
    | cons i is =>
      obtain ⟨hd1, hd2⟩ := List.cons.inj hd
      have h1 : step s = .next ((s.setCommandIn (cmds ++ rest)).complete (effect i s.engine)) :=
        (step_of_word hr).trans ((runWord_of_ok hd1 _).trans (exec_of_inv (s := s.setCommandIn (cmds ++ rest)) hs i))
      obtain ⟨u, g1, g2, g3, g4, g5, g6⟩ := ih is hd2 ((s.setCommandIn (cmds ++ rest)).complete (effect i s.engine))
        (effect_valid hs i) ⟨hr.1, rfl⟩
      refine ⟨u, (core_run_succ _ h1).trans g1, g2, g3, g4, ?_, ?_⟩
      · rw [g5]; simp [List.replicate_succ]
      · rw [g6]; simp [effects]

end Sys2Proof.Machine
end

