-- ==== Sys2Proof/Laws/Decode.lean ====
section
/-!
SUPPORT. The fields of a command word and the decoder: a word is its two fields, and the decoder reads nothing else of it.
-/

namespace Sys2Proof

/-- The more significant half of a joined word. -/
theorem extract_append_high {n m : Nat} (x : BitVec n) (y : BitVec m) : (x ++ y).extractLsb' m n = x := by
  ext i hi
  simp [BitVec.getLsbD_append, hi]

/-- The less significant half of a joined word. -/
theorem extract_append_low {n m : Nat} (x : BitVec n) (y : BitVec m) : (x ++ y).extractLsb' 0 m = y := by
  ext i hi
  simp [BitVec.getLsbD_append, hi]

/-- `cmd[15:8]` of a word written as its two fields (R61). -/
theorem field_op (op imm8 : Byte) : (op ++ imm8 : Word).extractLsb' 8 8 = op := extract_append_high op imm8

/-- `cmd[7:0]` of a word written as its two fields (R61). -/
theorem field_imm8 (op imm8 : Byte) : (op ++ imm8 : Word).extractLsb' 0 8 = imm8 := extract_append_low op imm8

/-- A word is its two fields (R61). -/
theorem fields_append (cmd : Word) : ((cmd.extractLsb' 8 8 : Byte) ++ (cmd.extractLsb' 0 8 : Byte) : Word) = cmd := by
  ext i hi
  simp only [BitVec.getElem_append, BitVec.getElem_extractLsb']
  by_cases h : i < 8
  · simp [h, BitVec.getLsbD_eq_getElem hi]
  · have e : 8 + (i - 8) = i := by omega
    simp [h, e, BitVec.getLsbD_eq_getElem hi]

/-- Two words are equal when both fields are. -/
theorem append_inj_iff (a b c d : Byte) : ((a ++ b : Word) = (c ++ d : Word)) ↔ a = c ∧ b = d := by
  constructor
  · intro h
    have h1 := congrArg (BitVec.extractLsb' 8 8) h
    have h2 := congrArg (BitVec.extractLsb' 0 8) h
    rw [field_op, field_op] at h1
    rw [field_imm8, field_imm8] at h2
    exact ⟨h1, h2⟩
  · rintro ⟨rfl, rfl⟩
    rfl

/-- Decoding a word written as its two fields. -/
theorem decode_append (op imm8 : Byte) : decode (op ++ imm8) = decodeFields op imm8 := by
  unfold decode
  rw [field_op, field_imm8]

/-- A word given as the base of its row plus its operand. -/
theorem base_add_operand (base : Word) (op : Byte) (h : base = op ++ 0#8) (b : Byte) : base + b.setWidth 16 = (op ++ b : Word) := by
  subst h
  apply BitVec.eq_of_toNat_eq
  have hb := b.isLt
  have ho := op.isLt
  have e1 : (op ++ b : Word).toNat = op.toNat * 256 + b.toNat := by
    rw [BitVec.toNat_append, Nat.shiftLeft_eq, Nat.mul_comm, ← Nat.two_pow_add_eq_or_of_lt hb]
  have e2 : (op ++ 0#8 : Word).toNat = op.toNat * 256 := by
    rw [BitVec.toNat_append]
    simp [Nat.shiftLeft_eq]
  rw [BitVec.toNat_add, e1, e2, BitVec.toNat_setWidth, Nat.mod_eq_of_lt (show b.toNat < 2 ^ 16 by omega), Nat.mod_eq_of_lt (by omega)]

/-- A nibble as an operand field (R62): its upper bits are zero and its lower ones are the nibble. -/
theorem nibble_field : ∀ x : Nibble, (x.setWidth 8 : Byte).extractLsb' 4 4 = 0#4 ∧ (x.setWidth 8 : Byte).extractLsb' 0 4 = x := by
  decide

/-- An operand field with zero upper bits is its lower nibble. -/
theorem field_of_nibble : ∀ b : Byte, b.extractLsb' 4 4 = 0#4 → (b.extractLsb' 0 4 : Nibble).setWidth 8 = b := by decide

namespace Machine

/-- A word the decoder refuses is refused by the machine. -/
theorem refused_of_illegal {cmd : Word} {r : Illegal} (h : decode cmd = .illegal r) : Refused cmd := fun s => runWord_of_illegal h s

/-- A word the decoder reads as an instruction is run as it. -/
theorem encodes_of_ok {cmd : Word} {i : Instr} (h : decode cmd = .ok i) : Encodes cmd i := fun s => runWord_of_ok h s

end Machine

end Sys2Proof
end

