-- ==== Sys2Proof/Laws/Evaluator.lean ====
section
/-!
SUPPORT. A second way to compute the engine's procedures, which Lean's kernel evaluates fast: the table a tree of numbers, the
registers numbers, every result handed on to what comes next. It is proved to compute what the model's definitions compute, so
the tests can check the spec's vectors for SHUFFLE and HFIN against the model.
-/

namespace Sys2Proof.Machine

/-- 256 numbers as a tree; the lowest bit of an address chooses the branch at the root. -/
inductive ByteTree where
  | leaf (v : Nat)
  | node (l r : ByteTree)

/-- The number at an address. -/
def ByteTree.get : ByteTree → Nat → Nat
  | .leaf v, _ => v
  | .node l r, n => if n % 2 = 0 then l.get (n / 2) else r.get (n / 2)

/-- The tree with `v` at an address. -/
def ByteTree.set : ByteTree → Nat → Nat → ByteTree
  | .leaf _, _, v => .leaf v
  | .node l r, n, v => if n % 2 = 0 then .node (l.set (n / 2) v) r else .node l (r.set (n / 2) v)

/-- Every branch has length `d`. -/
def ByteTree.Full : Nat → ByteTree → Prop
  | 0, .leaf _ => True
  | d + 1, .node l r => Full d l ∧ Full d r
  | 0, .node _ _ => False
  | _ + 1, .leaf _ => False

/-- The identity on `2 ^ d` addresses `off, off + st, ..`. -/
def ByteTree.identity : Nat → Nat → Nat → ByteTree
  | 0, off, _ => .leaf off
  | d + 1, off, st => .node (ByteTree.identity d off (2 * st)) (ByteTree.identity d (off + st) (2 * st))

theorem ByteTree.full_identity (d off st : Nat) : Full d (ByteTree.identity d off st) := by
  induction d generalizing off st with
  | zero => trivial
  | succ d ih => exact ⟨ih _ _, ih _ _⟩

theorem ByteTree.full_set {d : Nat} {t : ByteTree} (h : Full d t) (n v : Nat) : Full d (t.set n v) := by
  induction t generalizing d n with
  | leaf u => cases d <;> simp_all [ByteTree.Full, ByteTree.set]
  | node l r ihl ihr =>
    cases d with
    | zero => exact h.elim
    | succ d =>
      simp only [ByteTree.set]
      split
      · exact ⟨ihl h.1 _, h.2⟩
      · exact ⟨h.1, ihr h.2 _⟩

theorem ByteTree.get_set {d : Nat} {t : ByteTree} (h : Full d t) {n m : Nat} (hn : n < 2 ^ d) (hm : m < 2 ^ d) (v : Nat) :
    (t.set n v).get m = if m = n then v else t.get m := by
  induction t generalizing d n m with
  | leaf u =>
    cases d with
    | zero => simp only [ByteTree.set, ByteTree.get]; rw [if_pos (by omega)]
    | succ d => exact h.elim
  | node l r ihl ihr =>
    cases d with
    | zero => exact h.elim
    | succ d =>
      have h2 : 2 ^ (d + 1) = 2 ^ d * 2 := Nat.pow_succ 2 d
      have hl := ihl h.1 (n := n / 2) (m := m / 2) (by omega) (by omega)
      have hr := ihr h.2 (n := n / 2) (m := m / 2) (by omega) (by omega)
      by_cases hn2 : n % 2 = 0 <;> by_cases hm2 : m % 2 = 0 <;>
        simp only [ByteTree.set, ByteTree.get, hn2, hm2, if_true, if_false, hl, hr] <;>
        by_cases e : m = n
      all_goals first
        | (subst e; simp_all)
        | (rw [if_neg (by omega), if_neg e])
        | (rw [if_neg e])

/-! ### The fast procedures -/

/-- `f n`, with `n` evaluated before it is handed on. -/
def force (n : Nat) (f : Nat → Bool) : Bool :=
  Nat.rec (f 0) (fun m _ => f (Nat.succ m)) n

/-- `k` of the number at an address. -/
noncomputable def ByteTree.getK (t : ByteTree) : Nat → (Nat → Bool) → Bool :=
  ByteTree.rec (fun v _ k => k v) (fun _ _ gl gr n k => bif Nat.beq (n % 2) 0 then gl (n / 2) k else gr (n / 2) k) t

/-- `k` of the tree with `v` at an address. -/
noncomputable def ByteTree.setK (t : ByteTree) : Nat → Nat → (ByteTree → Bool) → Bool :=
  ByteTree.rec (fun _ _ v k => k (.leaf v))
    (fun l r gl gr n v k => bif Nat.beq (n % 2) 0 then gl (n / 2) v (fun l' => k (.node l' r))
      else gr (n / 2) v (fun r' => k (.node l r'))) t

theorem force_eq (n : Nat) (f : Nat → Bool) : force n f = f n := by cases n <;> rfl

theorem ByteTree.getK_eq (t : ByteTree) (n : Nat) (k : Nat → Bool) : t.getK n k = k (t.get n) := by
  induction t generalizing n with
  | leaf v => rfl
  | node l r ihl ihr =>
    have e : (ByteTree.node l r).getK n k = bif Nat.beq (n % 2) 0 then l.getK (n / 2) k else r.getK (n / 2) k := rfl
    rw [e, ihl, ihr, ByteTree.get]
    rcases Nat.mod_two_eq_zero_or_one n with h | h <;> simp [h, Nat.beq]

theorem ByteTree.setK_eq (t : ByteTree) (n v : Nat) (k : ByteTree → Bool) : t.setK n v k = k (t.set n v) := by
  induction t generalizing n k with
  | leaf v => rfl
  | node l r ihl ihr =>
    have e : (ByteTree.node l r).setK n v k = bif Nat.beq (n % 2) 0 then l.setK (n / 2) v (fun l' => k (.node l' r))
      else r.setK (n / 2) v (fun r' => k (.node l r')) := rfl
    rw [e, ihl, ihr, ByteTree.set]
    rcases Nat.mod_two_eq_zero_or_one n with h | h <;> simp [h, Nat.beq]

/-- Swap (R13), the two entries already read. -/
noncomputable def swapK (t : ByteTree) (p q u v : Nat) (f : ByteTree → Bool) : Bool :=
  t.setK p v fun t => t.setK q u f

/-- Update (R113). -/
noncomputable def updateK (w : Nat) (t : ByteTree) (i j k : Nat) (f : ByteTree → Nat → Nat → Nat → Bool) : Bool :=
  force ((i + w) % 256) fun i =>
    t.getK i fun t1 =>
      t.getK ((j + t1) % 256) fun t2 =>
        force ((k + t2) % 256) fun j =>
          t.getK j fun t3 =>
            force ((i + k + t3) % 256) fun k => swapK t i j t1 t3 fun t => f t i j k

/-- `n` updates (R95). -/
noncomputable def updatesK (w n : Nat) : ByteTree → Nat → Nat → Nat → (ByteTree → Nat → Nat → Nat → Bool) → Bool :=
  Nat.rec (fun t i j k f => f t i j k) (fun _ ih t i j k f => updateK w t i j k fun t i j k => ih t i j k f) n

/-- `n` comparisons of Crush from the pair `v` on (R96). -/
noncomputable def crushK (n : Nat) : Nat → ByteTree → (ByteTree → Bool) → Bool :=
  Nat.rec (fun _ t f => f t)
    (fun _ ih v t f => t.getK v fun x => t.getK (255 - v) fun y =>
      force (v + 1) fun v' => bif Nat.blt y x then swapK t v (255 - v) x y fun t => ih v' t f else ih v' t f) n

/-- Shuffle (R97), entered with the step `w`. -/
noncomputable def shuffleK (w : Nat) (t : ByteTree) (i j k : Nat) (f : ByteTree → Nat → Nat → Nat → Bool) : Bool :=
  updatesK w 512 t i j k fun t i j k => crushK 128 0 t fun t =>
    force ((w + 2) % 256) fun w => updatesK w 512 t i j k fun t i j k => crushK 128 0 t fun t =>
      force ((w + 2) % 256) fun w => updatesK w 512 t i j k f

/-- `n` update and output pairs (R106), the bytes in the order emitted. -/
noncomputable def emitK (w n : Nat) :
    ByteTree → Nat → Nat → Nat → Nat → (List Nat → ByteTree → Nat → Nat → Nat → Nat → Bool) → Bool :=
  Nat.rec (fun t i j k z f => f [] t i j k z)
    (fun _ ih t i j k z f => updateK w t i j k fun t i j k =>
      t.getK ((z + k) % 256) fun u1 => t.getK ((i + u1) % 256) fun u2 => t.getK ((j + u2) % 256) fun z =>
        ih t i j k z fun bs t i j k z' => f (z :: bs) t i j k z') n

/-! ### They compute what the model's procedures compute -/

/-- The tree and the numbers are the engine's table and its registers `i`, `j`, `k`. -/
structure Rep (e : Engine) (t : ByteTree) (i j k : Nat) : Prop where
  full : ByteTree.Full 8 t
  ok : e.TableOk
  table : ∀ p : Byte, t.get p.toNat = (e.read p).toNat
  hi : e.i.toNat = i
  hj : e.j.toNat = j
  hk : e.k.toNat = k

/-- The reset engine. -/
theorem Rep.reset : Rep Engine.reset (ByteTree.identity 8 0 1) 0 0 0 where
  full := ByteTree.full_identity 8 0 1
  ok := ((Engine.valid_iff _).mp Engine.reset_valid).1
  table := by decide
  hi := rfl
  hj := rfl
  hk := rfl

/-- An engine with the same table and the same three registers. -/
theorem Rep.congr {e e' : Engine} {t : ByteTree} {i j k : Nat} (h : Rep e t i j k) (hS : e'.S = e.S) (hi : e'.i = e.i)
    (hj : e'.j = e.j) (hk : e'.k = e.k) : Rep e' t i j k :=
  { full := h.full, ok := h.ok.congr hS, table := fun p => by rw [h.table p, Engine.read, Engine.read, hS],
    hi := hi ▸ h.hi, hj := hj ▸ h.hj, hk := hk ▸ h.hk }

/-- What one address of the tree holds, the address given as a sum. -/
theorem Rep.get_add {e : Engine} {t : ByteTree} {i j k : Nat} (h : Rep e t i j k) (x y : Byte) :
    t.get ((x.toNat + y.toNat) % 256) = (e.read (x + y)).toNat := by
  rw [← h.table (x + y), BitVec.toNat_add]

theorem Rep.swap {e : Engine} {t : ByteTree} {i j k : Nat} (h : Rep e t i j k) (p q : Byte) :
    Rep (e.swap p q) ((t.set p.toNat (e.read q).toNat).set q.toNat (e.read p).toNat) i j k where
  full := ByteTree.full_set (ByteTree.full_set h.full _ _) _ _
  ok := Engine.swap_tableOk h.ok p q
  table x := by
    have hb : ∀ y : Byte, y.toNat < 2 ^ 8 := fun y => y.isLt
    rw [ByteTree.get_set (ByteTree.full_set h.full _ _) (hb _) (hb _), ByteTree.get_set h.full (hb _) (hb _),
      Engine.read_swap h.ok, h.table]
    simp only [BitVec.toNat_inj]
    split
    · rfl
    · split <;> rfl
  hi := h.hi
  hj := h.hj
  hk := h.hk

theorem swapK_eq (t : ByteTree) (p q u v : Nat) (f : ByteTree → Bool) : swapK t p q u v f = f ((t.set p v).set q u) := by
  simp [swapK, ByteTree.setK_eq]

/-- An update. -/
theorem Rep.update {e : Engine} {t : ByteTree} {i j k w : Nat} (h : Rep e t i j k) (hw : e.w.toNat = w) :
    ∃ t' i' j' k', Rep e.update t' i' j' k' ∧ ∀ f, updateK w t i j k f = f t' i' j' k' := by
  have h1 : e.update.i.toNat = (i + w) % 256 := by rw [Engine.update_i, BitVec.toNat_add, h.hi, hw]
  have h2 : e.update.j.toNat = (k + (e.read (e.j + e.read (e.i + e.w))).toNat) % 256 := by
    rw [Engine.update_j, BitVec.toNat_add, h.hk]
  have h3 : e.update.k.toNat = (e.update.i.toNat + k + (e.read e.update.j).toNat) % 256 := by
    rw [Engine.update_k, BitVec.toNat_add, BitVec.toNat_add, h.hk]; omega
  refine ⟨(t.set e.update.i.toNat (e.read e.update.j).toNat).set e.update.j.toNat (e.read e.update.i).toNat, e.update.i.toNat,
    e.update.j.toNat, e.update.k.toNat, ?_, fun f => ?_⟩
  · exact { Rep.congr (h.swap e.update.i e.update.j) (e' := { e.update with i := e.i, j := e.j, k := e.k })
      (Engine.update_S e) rfl rfl rfl with hi := rfl, hj := rfl, hk := rfl }
  · simp only [updateK, force_eq, ByteTree.getK_eq, swapK_eq]
    rw [← h1, h.table, ← h.hj, h.get_add, Engine.update_i, ← h2, h.table, ← Engine.update_i, ← h3]

/-- A number of updates. -/
theorem Rep.updates {e : Engine} {t : ByteTree} {i j k w : Nat} (h : Rep e t i j k) (hw : e.w.toNat = w) (n : Nat) :
    ∃ t' i' j' k', Rep (e.updates n) t' i' j' k' ∧ ∀ f, updatesK w n t i j k f = f t' i' j' k' := by
  induction n generalizing e t i j k with
  | zero => exact ⟨t, i, j, k, h, fun _ => rfl⟩
  | succ n ih =>
    obtain ⟨t1, i1, j1, k1, h1, e1⟩ := h.update hw
    obtain ⟨t2, i2, j2, k2, h2, e2⟩ := ih h1 hw
    refine ⟨t2, i2, j2, k2, h2, fun f => ?_⟩
    rw [← e2 f]
    exact e1 _

/-- A pass of comparisons. -/
theorem Rep.crushFrom {e : Engine} {t : ByteTree} {i j k : Nat} (h : Rep e t i j k) (n v : Nat) (hv : v + n ≤ 128) :
    ∃ t', Rep ((List.range' v n).foldl (fun e v => e.crushPair (BitVec.ofNat 8 v)) e) t' i j k ∧
      ∀ f, crushK n v t f = f t' := by
  induction n generalizing e t v with
  | zero => exact ⟨t, h, fun _ => rfl⟩
  | succ n ih =>
    set p : Byte := BitVec.ofNat 8 v with hp
    have hpv : p.toNat = v := by rw [hp, BitVec.toNat_ofNat]; omega
    have hqv : (255#8 - p).toNat = 255 - v := by rw [BitVec.toNat_sub, hpv]; simp; omega
    have hstep : ∀ f, crushK (n + 1) v t f = bif Nat.blt (e.read (255#8 - p)).toNat (e.read p).toNat then
        crushK n (v + 1) ((t.set p.toNat (e.read (255#8 - p)).toNat).set (255#8 - p).toNat (e.read p).toNat) f
        else crushK n (v + 1) t f := by
      intro f
      rw [← h.table p, ← h.table (255#8 - p), hpv, hqv]
      have : crushK (n + 1) v t f = t.getK v fun x => t.getK (255 - v) fun y => force (v + 1) fun v' =>
        bif Nat.blt y x then swapK t v (255 - v) x y fun t => crushK n v' t f else crushK n v' t f := rfl
      rw [this]
      simp only [force_eq, ByteTree.getK_eq, swapK_eq]
    rw [List.range'_succ, List.foldl_cons, Engine.crushPair_eq]
    by_cases hlt : e.read (255#8 - p) < e.read p
    · obtain ⟨t', h', e'⟩ := ih (h.swap p (255#8 - p)) (v + 1) (by omega)
      refine ⟨t', ?_, fun f => ?_⟩
      · rw [if_pos hlt]; exact h'
      · have : Nat.blt (e.read (255#8 - p)).toNat (e.read p).toNat = true := by
          simpa [Nat.blt_eq] using BitVec.lt_def.mp hlt
        rw [hstep, this, ← e' f]
        rfl
    · obtain ⟨t', h', e'⟩ := ih h (v + 1) (by omega)
      refine ⟨t', ?_, fun f => ?_⟩
      · rw [if_neg hlt]; exact h'
      · have : Nat.blt (e.read (255#8 - p)).toNat (e.read p).toNat = false := by
          rw [BitVec.lt_def, ← Nat.blt_eq] at hlt
          exact Bool.eq_false_iff.mpr hlt
        rw [hstep, this, ← e' f]
        rfl

theorem Rep.crush {e : Engine} {t : ByteTree} {i j k : Nat} (h : Rep e t i j k) :
    ∃ t', Rep e.crush t' i j k ∧ ∀ f, crushK 128 0 t f = f t' := by
  have := h.crushFrom 128 0 (by omega)
  rwa [← List.range_eq_range'] at this

theorem Rep.whip {e : Engine} {t : ByteTree} {i j k w : Nat} (h : Rep e t i j k) (hw : e.w.toNat = w) :
    ∃ t' i' j' k', Rep (e.whip Config.whipLength) t' i' j' k' ∧ ∀ f, updatesK w 512 t i j k f = f t' i' j' k' := by
  obtain ⟨t', i', j', k', h', e'⟩ := h.updates hw 512
  exact ⟨t', i', j', k', h'.congr (Engine.setW_S _ _) (Engine.setW_i _ _) (Engine.setW_j _ _) (Engine.setW_k _ _), e'⟩

theorem Engine.whip_crush_w_toNat {e : Engine} {w : Nat} (hw : e.w.toNat = w) :
    (e.whip Config.whipLength).crush.w.toNat = (w + 2) % 256 := by
  rw [Engine.crush_w, Engine.whip_w, BitVec.toNat_add, hw]; rfl

/-- Shuffle. -/
theorem Rep.shuffle {e : Engine} {t : ByteTree} {i j k w : Nat} (h : Rep e t i j k) (hw : e.w.toNat = w) :
    ∃ t' i' j' k', Rep e.shuffle t' i' j' k' ∧ ∀ f, shuffleK w t i j k f = f t' i' j' k' := by
  obtain ⟨t1, i1, j1, k1, h1, e1⟩ := h.whip hw
  obtain ⟨t2, h2, e2⟩ := h1.crush
  have w2 := Engine.whip_crush_w_toNat hw
  obtain ⟨t3, i3, j3, k3, h3, e3⟩ := h2.whip w2
  obtain ⟨t4, h4, e4⟩ := h3.crush
  have w4 := Engine.whip_crush_w_toNat w2
  obtain ⟨t5, i5, j5, k5, h5, e5⟩ := h4.whip w4
  refine ⟨t5, i5, j5, k5, ?_, fun f => ?_⟩
  · rw [Engine.shuffle_eq]
    exact h5.congr (Engine.setA_S _ _) (Engine.setA_i _ _) (Engine.setA_j _ _) (Engine.setA_k _ _)
  · simp only [shuffleK, force_eq, e1, e2, e3, e4, e5]

/-- The update and output pairs of a squeeze. -/
theorem Rep.emit {e : Engine} {t : ByteTree} {i j k w z : Nat} (h : Rep e t i j k) (hw : e.w.toNat = w) (hz : e.z.toNat = z)
    (n : Nat) :
    ∃ t' i' j' k' z', Rep (e.emitBytes n).1 t' i' j' k' ∧ (e.emitBytes n).1.z.toNat = z' ∧
      ∀ f, emitK w n t i j k z f = f ((e.emitBytes n).2.map BitVec.toNat) t' i' j' k' z' := by
  induction n generalizing e t i j k z with
  | zero => exact ⟨t, i, j, k, z, h, hz, fun _ => rfl⟩
  | succ n ih =>
    obtain ⟨t1, i1, j1, k1, h1, e1⟩ := h.update hw
    have h2 : Rep e.update.output t1 i1 j1 k1 := h1.congr rfl rfl rfl rfl
    obtain ⟨t3, i3, j3, k3, z3, h3, hz3, e3⟩ := ih h2 hw rfl
    refine ⟨t3, i3, j3, k3, z3, h3, hz3, fun f => ?_⟩
    have : emitK w (n + 1) t i j k z f = updateK w t i j k fun t i j k =>
      t.getK ((z + k) % 256) fun u1 => t.getK ((i + u1) % 256) fun u2 => t.getK ((j + u2) % 256) fun z =>
        emitK w n t i j k z fun bs t i j k z' => f (z :: bs) t i j k z' := rfl
    rw [this, e1, Engine.emitBytes_succ]
    simp only [ByteTree.getK_eq]
    have hz' : e.update.z.toNat = z := hz
    rw [← hz', ← h1.hk, ← h1.hi, ← h1.hj, h1.get_add, h1.get_add, h1.get_add, ← Engine.output_z, h1.hi, h1.hj, h1.hk, e3]
    rfl

/-! ### What a computed check says of the model -/

/-- The tree of a table. -/
def ByteTree.ofTable (t : Table) : ByteTree :=
  t.foldl (fun u c => u.set c.1 c.2.toNat) (ByteTree.identity 8 0 1)

theorem ByteTree.full_ofTable (t : Table) : Full 8 (ByteTree.ofTable t) := by
  unfold ByteTree.ofTable
  generalize hu : ByteTree.identity 8 0 1 = u
  have h : Full 8 u := hu ▸ ByteTree.full_identity 8 0 1
  clear hu
  induction t generalizing u with
  | nil => exact h
  | cons c t ih => exact ih _ (ByteTree.full_set h _ _)

/-- A valid engine whose tree has been checked at every address. -/
theorem Rep.ofTable {e : Engine} (h : e.valid = true) (ht : ∀ p : Byte, (ByteTree.ofTable e.S).get p.toNat = (e.read p).toNat) :
    Rep e (ByteTree.ofTable e.S) e.i.toNat e.j.toNat e.k.toNat where
  full := ByteTree.full_ofTable e.S
  ok := ((Engine.valid_iff e).mp h).1
  table := ht
  hi := rfl
  hj := rfl
  hk := rfl

/-- The check of a shuffle: the registers `i`, `j`, `k` and the entries at some addresses. -/
noncomputable def shuffleCheck (w : Nat) (t : ByteTree) (i j k i' j' k' : Nat) (ps : List Byte) (vs : List Nat) : Bool :=
  shuffleK w t i j k fun t x y z => Nat.beq x i' && Nat.beq y j' && Nat.beq z k' && (ps.map fun p => t.get p.toNat) == vs

theorem Engine.shuffle_of_check {e : Engine} {t : ByteTree} {i j k w i' j' k' : Nat} {ps : List Byte} {vs : List Nat}
    (h : Rep e t i j k) (hw : e.w.toNat = w) (hc : shuffleCheck w t i j k i' j' k' ps vs = true) :
    e.shuffle.i.toNat = i' ∧ e.shuffle.j.toNat = j' ∧ e.shuffle.k.toNat = k' ∧ ps.map (fun p => (e.shuffle.read p).toNat) = vs := by
  obtain ⟨t1, i1, j1, k1, h1, e1⟩ := h.shuffle hw
  rw [shuffleCheck, e1] at hc
  simp only [Bool.and_eq_true, beq_iff_eq] at hc
  obtain ⟨⟨⟨hi, hj⟩, hk⟩, hv⟩ := hc
  exact ⟨h1.hi.trans (Nat.eq_of_beq_eq_true hi), h1.hj.trans (Nat.eq_of_beq_eq_true hj), h1.hk.trans (Nat.eq_of_beq_eq_true hk),
     by simpa only [h1.table] using hv⟩

/-- The check of a squeeze that shuffles first: the bytes. -/
noncomputable def squeezeCheck (w : Nat) (t : ByteTree) (i j k z : Nat) (bs : List Nat) : Bool :=
  shuffleK w t i j k fun t i j k => force ((w + 6) % 256) fun w => emitK w bs.length t i j k z fun out _ _ _ _ _ => out == bs

theorem Engine.squeeze_of_check {e : Engine} {t : ByteTree} {i j k w z : Nat} {bs : List Nat} (h : Rep e t i j k)
    (hw : e.w.toNat = w) (hz : e.z.toNat = z) (ha : 0#8 < e.a) (hc : squeezeCheck w t i j k z bs = true) :
    (e.squeeze bs.length).2.map BitVec.toNat = bs := by
  obtain ⟨t1, i1, j1, k1, h1, e1⟩ := h.shuffle hw
  have hw1 : e.shuffle.w.toNat = (w + 6) % 256 := by
    rw [Engine.shuffle_w, BitVec.add_assoc, BitVec.add_assoc, BitVec.toNat_add, hw]
    rfl
  obtain ⟨t2, i2, j2, k2, z2, h2, hz2, e2⟩ := h1.emit hw1 ((congrArg BitVec.toNat (Engine.shuffle_z e)).trans hz) bs.length
  rw [squeezeCheck, e1] at hc
  simp only [force_eq] at hc
  rw [e2] at hc
  rw [Engine.squeeze, Engine.shuffleIfUnflushed_eq, if_pos ha]
  exact eq_of_beq hc

end Sys2Proof.Machine
end

