-- ==== Sys2Proof/Laws/PerInstr.lean ====
section
/-!
SUPPORT. Statements per instruction, one lemma per constructor.
-/

namespace Sys2Proof.Laws

/-- The command word of the instruction belongs to its row of R63: its fixed bits have the row's value, its fields are the
instruction's opcode and operand, and they are well-formed in the terms of R65. -/
def MatchesRow.Statement (i : Instr) : Prop :=
  encode i &&& rowMask i = rowMatch i ∧ Fields.ofWord (encode i) = ⟨opcode i, operand i⟩ ∧ (Fields.ofWord (encode i)).wellFormed = true

/-- The fields of a command word (R61). -/
theorem ofWord_encode (i : Instr) : Fields.ofWord (encode i) = ⟨opcode i, operand i⟩ := by
  simp only [Fields.ofWord, encode, field_op, field_imm8]

/-- The three clauses from two facts about the operand alone. -/
theorem matchesRow_of {i : Instr} (m : Byte) (hm : rowMask i = 0xFF#8 ++ m) (hv : rowMatch i = opcode i ++ 0#8)
    (h : operand i &&& m = 0#8) (hw : (⟨opcode i, operand i⟩ : Fields).wellFormed = true) : MatchesRow.Statement i := by
  refine ⟨?_, ofWord_encode i, by rw [ofWord_encode]; exact hw⟩
  rw [encode, hm, hv, BitVec.and_append, h, show (0xFF#8 : Byte) = BitVec.allOnes 8 from rfl, BitVec.and_allOnes]

theorem MatchesRow.init : MatchesRow.Statement .init := matchesRow_of 0xFF#8 rfl rfl rfl rfl

theorem MatchesRow.absorb (b : Byte) : MatchesRow.Statement (.absorb b) :=
  matchesRow_of 0#8 rfl (by simp only [rowMatch, opcode]; rfl) BitVec.and_zero rfl

theorem MatchesRow.absorbn (x : Nibble) : MatchesRow.Statement (.absorbn x) :=
  matchesRow_of 0xF0#8 rfl (by simp only [rowMatch, opcode]; rfl) (by revert x; decide) (by revert x; decide)

theorem MatchesRow.abstop : MatchesRow.Statement .abstop := matchesRow_of 0xFF#8 rfl rfl rfl rfl

theorem MatchesRow.shuffle : MatchesRow.Statement .shuffle := matchesRow_of 0xFF#8 rfl rfl rfl rfl

theorem MatchesRow.drip : MatchesRow.Statement .drip := matchesRow_of 0xFF#8 rfl rfl rfl rfl

theorem MatchesRow.squeeze (r : Byte) : MatchesRow.Statement (.squeeze r) :=
  matchesRow_of 0#8 rfl (by simp only [rowMatch, opcode]; rfl) BitVec.and_zero rfl

theorem MatchesRow.update : MatchesRow.Statement .update := matchesRow_of 0xFF#8 rfl rfl rfl rfl

theorem MatchesRow.output : MatchesRow.Statement .output := matchesRow_of 0xFF#8 rfl rfl rfl rfl

theorem MatchesRow.hfin (r : Byte) : MatchesRow.Statement (.hfin r) :=
  matchesRow_of 0#8 rfl (by simp only [rowMatch, opcode]; rfl) BitVec.and_zero rfl

end Sys2Proof.Laws
end

