-- ==== Sys2Proof/Tests/Slice0.lean ====
section
/-!
SUPPORT. Tests of one step each, their results taken from spec/95_test_vectors.md (the vector is named at each test), and
witnesses that the hypotheses of the statements can be met together.
-/

namespace Sys2Proof.Tests

open Sys2Proof.Machine

/-! ### Helpers -/

/-- The next state of an outcome. -/
def next? : Host.Outcome State Fault Refusal → Option State
  | .next s => some s
  | _ => none

/-- The reset state with some words sent. -/
def sent (cmds : List Word) : State := State.reset.hostSendAll cmds

/-- The machine after `n` ABSTOPs from reset, `n` at most 128 (V37, V40): the table still the identity. -/
def stopped (n : Byte) : State := State.reset.setEngine (Engine.reset.setA n)

/-- What an instruction leaves of the engine, run from `s`. -/
def after (i : Instr) (s : State) : Option Engine := (next? (exec i s)).map State.engine

/-- The data bytes an instruction answers with, run from reset. -/
def dataOf (i : Instr) : Option (List Byte) := (next? (exec i State.reset)).map State.dataOut

/-! ### Well-formedness: an ill-formed term for each check, which the check refuses -/

theorem test_opcode_assigned_refuses :
    (⟨0x00#8, 0x00#8⟩ : Fields).opcodeAssigned = false ∧ (⟨0x0B#8, 0x05#8⟩ : Fields).opcodeAssigned = false ∧
      (⟨0x0A#8, 0xFF#8⟩ : Fields).wellFormed = true := by decide

theorem test_stray_operand_refuses :
    (⟨0x01#8, 0x01#8⟩ : Fields).noStrayOperand = false ∧ (⟨0x09#8, 0x10#8⟩ : Fields).noStrayOperand = false ∧
      (⟨0x05#8, 0xFF#8⟩ : Fields).wellFormed = false ∧ (⟨0x05#8, 0x00#8⟩ : Fields).wellFormed = true := by decide

theorem test_nibble_alphabet_refuses :
    (⟨0x03#8, 0x10#8⟩ : Fields).nibbleInAlphabet = false ∧ (⟨0x03#8, 0x0F#8⟩ : Fields).nibbleInAlphabet = true ∧
      (⟨0x03#8, 0x80#8⟩ : Fields).wellFormed = false ∧ (⟨0x02#8, 0xFF#8⟩ : Fields).wellFormed = true := by decide

/-! ### Decoding: words written out bit by bit from the encodings of R63, in the order of the table -/

theorem test_decode_init : decode 0b0000000100000000#16 = .ok .init ∧ decode 0x0101#16 = .illegal .strayOperand := by decide
theorem test_decode_absorb :
    decode 0b0000001001000001#16 = .ok (.absorb 0x41#8) ∧ decode 0b0000001011111111#16 = .ok (.absorb 0xFF#8) := by decide
theorem test_decode_absorbn :
    decode 0b0000001100001111#16 = .ok (.absorbn 0xF#4) ∧ decode 0x0310#16 = .illegal .nibbleOutOfRange := by decide
theorem test_decode_abstop : decode 0b0000010000000000#16 = .ok .abstop ∧ decode 0x0401#16 = .illegal .strayOperand := by decide
theorem test_decode_shuffle : decode 0b0000010100000000#16 = .ok .shuffle ∧ decode 0x05FF#16 = .illegal .strayOperand := by decide
theorem test_decode_drip : decode 0b0000011000000000#16 = .ok .drip ∧ decode 0x0680#16 = .illegal .strayOperand := by decide
theorem test_decode_squeeze :
    decode 0b0000011100010000#16 = .ok (.squeeze 16#8) ∧ decode 0b0000011111111111#16 = .ok (.squeeze 255#8) := by decide
theorem test_decode_update : decode 0b0000100000000000#16 = .ok .update ∧ decode 0x0801#16 = .illegal .strayOperand := by decide
theorem test_decode_output : decode 0b0000100100000000#16 = .ok .output ∧ decode 0x0910#16 = .illegal .strayOperand := by decide
theorem test_decode_hfin :
    decode 0b0000101000100000#16 = .ok (.hfin 0x20#8) ∧ decode 0b0000101000000000#16 = .ok (.hfin 0#8) := by decide

/-- V60: the illegal words of the spec. -/
theorem test_V60_illegal :
    ([0x0000, 0x0B00, 0x0B05, 0x7F00, 0xFFFF, 0x0101, 0x0401, 0x05FF, 0x0680, 0x0801, 0x0910, 0x0310, 0x0380, 0x03FF] :
      List Word).all (fun cmd => (decode cmd).instr?.isNone && !(Fields.ofWord cmd).wellFormed) = true := by decide

/-- V60: their nearest legal neighbours, decoded and encoded again. -/
theorem test_V60_legal :
    ([0x0100, 0x0A00, 0x0AFF, 0x0400, 0x0500, 0x0600, 0x0800, 0x0900, 0x030F, 0x0200, 0x02FF, 0x0700, 0x07FF] :
      List Word).all (fun cmd => (decode cmd).instr?.map encode == some cmd && (Fields.ofWord cmd).wellFormed) = true := by decide

/-- The word of a table row is read where its number says, and nothing longer than 16 bits is read. -/
theorem test_table_word :
    decodeTableWord 16 0x0305 = some (.absorbn 5#4) ∧ decodeTableWord 16 0x0B00 = none ∧ decodeTableWord 32 0x0305 = none := by
  decide

/-! ### INIT -/

/-- V10: INIT from a state that has absorbed and from one with `a = 128`. -/
theorem test_V10_init :
    (after (.absorb 0x41#8) State.reset).bind (fun e => after .init (State.reset.setEngine e)) = some Engine.reset ∧
      after .init (stopped 128#8) = some Engine.reset := by decide +kernel

/-! ### UPDATE and OUTPUT -/

/-- V11, second to third UPDATE: the registers and the table. -/
theorem test_V11_update :
    after .update (State.reset.setEngine ⟨[(2, 5#8), (5, 2#8)], 0x02#8, 0x05#8, 0x09#8, 0#8, 1#8, 0#8⟩) =
      some ⟨[(2, 0x05#8), (3, 0x11#8), (5, 0x02#8), (17, 0x03#8)], 0x03#8, 0x11#8, 0x1D#8, 0#8, 1#8, 0#8⟩ := by decide +kernel

/-- V14, its three cases: the additions wrap, `w = FF` steps down. -/
theorem test_V14_update_wraps :
    (⟨[], 0xFF#8, 0#8, 0#8, 0#8, 3#8, 0#8⟩ : Engine).update = ⟨[], 2#8, 2#8, 4#8, 0#8, 3#8, 0#8⟩ ∧
      (⟨[], 0x10#8, 0xF0#8, 0xF0#8, 0#8, 1#8, 0#8⟩ : Engine).update =
        ⟨[(0x11, 0xF1#8), (0xF1, 0x11#8)], 0x11#8, 0xF1#8, 0xF2#8, 0#8, 1#8, 0#8⟩ ∧
      (⟨[], 0x7F#8, 0x80#8, 1#8, 0#8, 0xFF#8, 0#8⟩ : Engine).update =
        ⟨[(0x7E, 0xFF#8), (0xFF, 0x7E#8)], 0x7E#8, 0xFF#8, 0x7E#8, 0#8, 0xFF#8, 0#8⟩ := by decide +kernel

/-- V13, pair 2: OUTPUT after the second UPDATE returns 14; the table is not written. -/
theorem test_V13_output :
    next? (exec .output (State.reset.setEngine ⟨[(2, 5#8), (5, 2#8)], 0x02#8, 0x05#8, 0x09#8, 0x04#8, 1#8, 0#8⟩)) =
      some { State.reset with
        engine := ⟨[(2, 5#8), (5, 2#8)], 0x02#8, 0x05#8, 0x09#8, 0x14#8, 1#8, 0#8⟩, statusOut := [.ok], dataOut := [0x14#8] } := by
  decide +kernel

/-- V15: the three index additions of OUTPUT wrap. -/
theorem test_V15_output_wraps : (⟨[], 0xF0#8, 0xF0#8, 0xF0#8, 0xF0#8, 1#8, 0#8⟩ : Engine).output.z = 0xC0#8 := by decide

/-! ### Crush, SHUFFLE -/

/-- V16 (c): exactly the two exchanged pairs swap back. -/
theorem test_V16_crush :
    (⟨[(0, 255#8), (127, 128#8), (128, 127#8), (255, 0#8)], 0#8, 0#8, 0#8, 0#8, 1#8, 0#8⟩ : Engine).crush = Engine.reset := by
  decide +kernel

/-- V20, computed: the registers after the shuffle of the identity table and its entries 00, 83, FE, FF. -/
theorem check_V20 :
    shuffleCheck 1 (ByteTree.identity 8 0 1) 0 0 0 0 0xB9 0x90 [0x00#8, 0x83#8, 0xFE#8, 0xFF#8] [0x1C, 0x35, 0xCB, 0x99] = true := by
  decide +kernel

/-- V20: SHUFFLE from the initial state. -/
theorem test_V20_shuffle :
    ∃ t, exec .shuffle State.reset = .next t ∧ t.engine.i.toNat = 0 ∧ t.engine.j.toNat = 0xB9 ∧ t.engine.k.toNat = 0x90 ∧
      t.engine.w = 7#8 ∧ t.engine.a = 0#8 ∧
      [0x00#8, 0x83#8, 0xFE#8, 0xFF#8].map (fun p => (t.engine.read p).toNat) = [0x1C, 0x35, 0xCB, 0x99] := by
  obtain ⟨hi, hj, hk, hv⟩ := Engine.shuffle_of_check Rep.reset (w := 1) rfl check_V20
  exact ⟨_, exec_of_inv (s := State.reset) Engine.reset_valid .shuffle, hi, hj, hk, Engine.shuffle_w _, Engine.shuffle_a _, hv⟩

/-! ### Absorption -/

/-- V30 and V32: ABSORBN 5 and ABSORBN 15. -/
theorem test_V30_V32_absorbn :
    after (.absorbn 5#4) State.reset = some ⟨[(0, 0x85#8), (0x85, 0#8)], 0#8, 0#8, 0#8, 0#8, 1#8, 1#8⟩ ∧
      after (.absorbn 15#4) State.reset = some ⟨[(0, 0x8F#8), (0x8F, 0#8)], 0#8, 0#8, 0#8, 0#8, 1#8, 1#8⟩ := by decide +kernel

/-- V33, V34 and V35: the low nibble is absorbed first, and a repeated nibble reads what the first wrote. -/
theorem test_V33_V34_V35_absorb :
    after (.absorb 0x41#8) State.reset =
        some ⟨[(0, 0x81#8), (1, 0x84#8), (0x81, 0#8), (0x84, 1#8)], 0#8, 0#8, 0#8, 0#8, 1#8, 2#8⟩ ∧
      after (.absorb 0x14#8) State.reset =
        some ⟨[(0, 0x84#8), (1, 0x81#8), (0x81, 1#8), (0x84, 0#8)], 0#8, 0#8, 0#8, 0#8, 1#8, 2#8⟩ ∧
      after (.absorb 0x11#8) State.reset = some ⟨[(0, 0x81#8), (1, 0#8), (0x81, 1#8)], 0#8, 0#8, 0#8, 0#8, 1#8, 2#8⟩ := by
  decide +kernel

/-- V37 and V40: the third and the 128th ABSTOP only count. -/
theorem test_V37_abstop :
    after .abstop (stopped 2#8) = some (Engine.reset.setA 3#8) ∧ after .abstop (stopped 127#8) = some (Engine.reset.setA 128#8) := by
  decide +kernel

/-- The shuffle of a saturated engine with the identity table, from the computation of V20. -/
theorem stopped_shuffle :
    [0x00#8, 0x83#8, 0xFE#8, 0xFF#8].map (fun p => ((stopped 128#8).engine.shuffle.read p).toNat) = [0x1C, 0x35, 0xCB, 0x99] :=
  (Engine.shuffle_of_check (e := (stopped 128#8).engine) (Rep.reset.congr rfl rfl rfl rfl) (w := 1) rfl check_V20).2.2.2

/-- V40: the 129th ABSTOP shuffles first; the table is V20's, `w` is 7, `a` is 1. -/
theorem test_V40_abstop_saturated :
    ∃ t, exec .abstop (stopped 128#8) = .next t ∧ t.engine.a = 1#8 ∧ t.engine.w = 7#8 ∧
      [0x00#8, 0x83#8, 0xFE#8, 0xFF#8].map (fun p => (t.engine.read p).toNat) = [0x1C, 0x35, 0xCB, 0x99] := by
  have hs : (stopped 128#8).engine.shuffleIfSaturated = (stopped 128#8).engine.shuffle := if_pos rfl
  refine ⟨_, exec_of_inv (by decide : (stopped 128#8).engine.valid = true) .abstop, ?_⟩
  rw [State.complete_engine, effect, Engine.absorbStop_eq, hs, Engine.setA_a, Engine.shuffle_a, Engine.setA_w]
  simp only [Engine.setA_read]
  exact ⟨rfl, Engine.shuffle_w _, stopped_shuffle⟩

/-! ### Extraction -/

/-- V55: SQUEEZE 16 from the initial state, the bytes in order. -/
theorem test_V55_squeeze :
    dataOf (.squeeze 16#8) = some [0x04#8, 0x14#8, 0x45#8, 0xCE#8, 0x39#8, 0xFC#8, 0xE3#8, 0xDF#8, 0xF7#8, 0xC9#8, 0x77#8,
      0xB2#8, 0xE5#8, 0xAE#8, 0xB5#8, 0x59#8] := by decide +kernel

/-- V43: SQUEEZE 0 with `a = 0` changes nothing and emits nothing. -/
theorem test_V43_squeeze_zero :
    next? (exec (.squeeze 0#8) State.reset) = some { State.reset with statusOut := [.ok] } := by decide +kernel

/-- V13, pair 1: DRIP with `a = 0`. -/
theorem test_V13_drip :
    after .drip State.reset = some ⟨[], 1#8, 1#8, 2#8, 4#8, 1#8, 0#8⟩ ∧ dataOf .drip = some [0x04#8] := by decide +kernel

/-- The engine after ABSORB 0x41 from reset (V33). -/
def absorbed41 : Engine := ⟨[(0, 0x81#8), (1, 0x84#8), (0x81, 0#8), (0x84, 1#8)], 0#8, 0#8, 0#8, 0#8, 1#8, 2#8⟩

/-- V42, computed: the eight bytes after ABSORB 0x41. -/
theorem check_V42 :
    squeezeCheck 1 (ByteTree.ofTable absorbed41.S) 0 0 0 0 [0xE9, 0x60, 0xA0, 0x4F, 0x69, 0xA5, 0x8A, 0x54] = true := by
  decide +kernel

theorem squeeze_V42 :
    (absorbed41.squeeze 8).2.map BitVec.toNat = [0xE9, 0x60, 0xA0, 0x4F, 0x69, 0xA5, 0x8A, 0x54] :=
  Engine.squeeze_of_check (bs := [0xE9, 0x60, 0xA0, 0x4F, 0x69, 0xA5, 0x8A, 0x54])
    (Rep.ofTable (e := absorbed41) (by decide) (by decide +kernel)) rfl rfl (by decide) check_V42

/-- V42 and V41: SQUEEZE 8 after ABSORB 0x41 shuffles first; so does DRIP, whose byte is the first one, E9. -/
theorem test_V42_squeeze_V41_drip :
    (∃ t, exec (.squeeze 8#8) (State.reset.setEngine absorbed41) = .next t ∧
        t.dataOut.map BitVec.toNat = [0xE9, 0x60, 0xA0, 0x4F, 0x69, 0xA5, 0x8A, 0x54]) ∧
      ∃ t, exec .drip (State.reset.setEngine absorbed41) = .next t ∧ t.dataOut.map BitVec.toNat = [0xE9] := by
  have hv : (State.reset.setEngine absorbed41).Inv := (by decide : absorbed41.valid = true)
  have h := squeeze_V42
  refine ⟨⟨_, exec_of_inv hv _, h⟩, _, exec_of_inv hv _, ?_⟩
  rw [Engine.squeeze, Engine.emitBytes_succ] at h
  exact congrArg (List.take 1) h

/-! ### HFIN -/

/-- V36, first part with its ABSTOP and ABSORB 0x20: the engine inside HFIN 32 after INIT and ABSORBS "ABC". -/
def absorbedABC20 : Engine :=
  ⟨[(0x00, 0x81#8), (0x01, 0x84#8), (0x02, 0x82#8), (0x03, 0x01#8), (0x04, 0x83#8), (0x05, 0x03#8), (0x07, 0x80#8),
    (0x08, 0x02#8), (0x80, 0x07#8), (0x81, 0x00#8), (0x82, 0x08#8), (0x83, 0x04#8), (0x84, 0x05#8)],
    0#8, 0#8, 0#8, 0#8, 1#8, 9#8⟩

/-- V36: absorbing "ABC", the stop and the byte 0x20 gives that engine. -/
theorem test_V36_absorbed :
    ((Engine.reset.absorbBytes [0x41#8, 0x42#8, 0x43#8]).absorbStop.absorbByte 0x20#8) = absorbedABC20 := by decide +kernel

/-- The digest of "ABC" of V1. -/
def digestABC : List Nat :=
  [0x02, 0x8F, 0xA2, 0xB4, 0x8B, 0x93, 0x4A, 0x18, 0x62, 0xB8, 0x69, 0x10, 0x51, 0x3A, 0x47, 0x67,
    0x7C, 0x1C, 0x2D, 0x95, 0xEC, 0x3E, 0x75, 0x70, 0x78, 0x6F, 0x1C, 0x32, 0x8B, 0xBD, 0x4A, 0x47]

/-- V1, computed: the 32 bytes squeezed from that engine. -/
theorem check_V1 : squeezeCheck 1 (ByteTree.ofTable absorbedABC20.S) 0 0 0 0 digestABC = true := by decide +kernel

/-- V1: HFIN 32 after INIT and ABSORBS "ABC" answers with the digest. -/
theorem test_V1_hfin :
    ∃ t, exec (.hfin 32#8) (State.reset.setEngine (Engine.reset.absorbBytes [0x41#8, 0x42#8, 0x43#8])) = .next t ∧
      t.dataOut.map BitVec.toNat = digestABC := by
  have hv : (State.reset.setEngine (Engine.reset.absorbBytes [0x41#8, 0x42#8, 0x43#8])).Inv :=
    (by decide : (Engine.reset.absorbBytes [0x41#8, 0x42#8, 0x43#8]).valid = true)
  have h : (absorbedABC20.squeeze digestABC.length).2.map BitVec.toNat = digestABC :=
    Engine.squeeze_of_check (Rep.ofTable (e := absorbedABC20) (by decide) (by decide +kernel)) rfl rfl (by decide) check_V1
  refine ⟨_, exec_of_inv hv _, ?_⟩
  rw [← test_V36_absorbed] at h
  exact h

/-! ### Steps and the host -/

/-- R131 with V60: an illegal word is consumed, answered with ILLEGAL and nothing else happens. -/
theorem test_step_illegal :
    next? (step (sent [0x0310#16, 0x0800#16])) =
      some { State.reset with commandIn := [0x0800#16], statusOut := [.illegal] } := by decide +kernel

/-- R151: reset before the words that wait; they stay. -/
theorem test_step_reset :
    next? (step ((stopped 5#8).hostSend 0x0800#16).hostReset) = some { State.reset with commandIn := [0x0800#16] } := by
  decide +kernel

/-- The word placed is the one the next step runs. -/
theorem test_fetch_word :
    next? (step (State.reset.withFetchWord 16 0x0305)) =
      some { State.reset with
        engine := ⟨[(0, 0x85#8), (0x85, 0#8)], 0#8, 0#8, 0#8, 0#8, 1#8, 1#8⟩, statusOut := [.ok] } := by decide +kernel

/-- R60, R155: the host takes what it was sent, oldest first. -/
theorem test_host_takes :
    ((State.reset.respond .ok [0x04#8, 0x14#8]).hostTakeByte.map Prod.fst) = some 0x04#8 ∧
      ((State.reset.respond .illegal []).hostTakeStatus.map Prod.fst) = some .illegal ∧
      State.reset.hostTakeStatus = none ∧ State.reset.hostTakeByte = none := by decide +kernel

/-! ### The assembler -/

/-- R71: a mnemonic, an operand in decimal and in hexadecimal, a comment, a raw word. -/
theorem test_assemble_commands :
    (assembleLines ["INIT ; start".toList, "ABSORB 0x41".toList, "; only a comment".toList, "ABSORBN 5".toList, "HFIN 32".toList,
        ".word 0x0310".toList]).toOption = some [0x0100#16, 0x0241#16, 0x0305#16, 0x0A20#16, 0x0310#16] := by decide +kernel

/-- R71: an operand out of range, one too many, one missing and an unknown mnemonic are refused, never truncated. -/
theorem test_assemble_refuses :
    assembleLine "SQUEEZE 256".toList = .error .badOperand ∧ assembleLine "ABSORBN 16".toList = .error .badOperand ∧
      assembleLine "INIT 0".toList = .error .badOperand ∧ assembleLine "DRIP 1".toList = .error .badOperand ∧
      assembleLine "ABSORB".toList = .error .badOperand ∧ assembleLine "CRUSH".toList = .error .badLine ∧
      assembleLine "ABSORB -1".toList = .error .badLine := by
  refine ⟨?_, ?_, ?_, ?_, ?_, ?_, ?_⟩ <;> rfl

/-- R72, R73, R74: the three pseudo-instructions. -/
theorem test_assemble_pseudo :
    (assembleLine "ABSORBS \"ABC\"".toList).toOption = some [0x0241#16, 0x0242#16, 0x0243#16] ∧
      (assembleLine "SQUEEZEL 600".toList).toOption = some [0x07FF#16, 0x07FF#16, 0x075A#16] ∧
      (assembleLine "SQUEEZEL 255".toList).toOption = some [0x07FF#16] ∧
      (assembleLine "SQUEEZEL 0".toList).toOption = some [0x0700#16] ∧
      (assembleLine "HASH [0x12, 7], 16".toList).toOption = some [0x0100#16, 0x0212#16, 0x0207#16, 0x0A10#16] ∧
      (assembleLine "HASH \"\", 0".toList).toOption = some [0x0100#16, 0x0A00#16] := by decide +kernel

/-! ### Witnesses: the hypotheses of the statements can be met, at the ends of their ranges -/

/-- `s.Inv` holds at reset, with `a` at 126, 127 and 128, and with a table that is not the identity. It is the one hypothesis on
the state of UpdateCommand, OutputCommand, ShuffleCommand, AbsorbNibbleCommand, AbsorbCommand, AbsorbStopCommand, DripCommand,
SqueezeCommand, SqueezeZero, HashTailCommand, EveryRunGoesOn, LegalCommandsComplete and WriteSummary. -/
theorem witness_inv :
    State.reset.Inv ∧ (stopped 126#8).Inv ∧ (stopped 127#8).Inv ∧ (stopped 128#8).Inv ∧ (State.reset.setEngine absorbed41).Inv := by
  unfold State.Inv
  decide

/-- NoMeaningOutsideInvariants: states outside each of the invariants. -/
theorem witness_not_inv :
    ¬ (stopped 129#8).Inv ∧ ¬ (State.reset.setEngine (Engine.reset.setW 2#8)).Inv ∧
      ¬ (State.reset.setEngine (Engine.reset.setS [(1, 0#8)])).Inv ∧ Instr.drip ≠ .init := by
  unfold State.Inv
  decide

/-- DecodeInvertsEncode, RowSelectedByMaskAndMatch: a word that decodes, and a word of a row given by another instruction of it. -/
theorem witness_row :
    decode 0x02FF#16 = .ok (.absorb 0xFF#8) ∧ (0x02FF#16 &&& rowMask (.absorb 0#8) = rowMatch (.absorb 0#8)) ∧
      (0x030F#16 &&& rowMask (.absorbn 0#4) = rowMatch (.absorbn 0#4)) ∧ (0x0900#16 &&& rowMask .output = rowMatch .output) := by
  decide

/-- DecodingProcedure: a word under each of its clauses, at the ends of the ranges; every later one fails the tests before it. -/
theorem witness_decoding_clauses :
    decode 0x00FF#16 = .illegal .unknownOpcode ∧ decode 0x0B00#16 = .illegal .unknownOpcode ∧
      decode 0xFFFF#16 = .illegal .unknownOpcode ∧ decode 0x0101#16 = .illegal .strayOperand ∧
      decode 0x09FF#16 = .illegal .strayOperand ∧ decode 0x0310#16 = .illegal .nibbleOutOfRange ∧
      decode 0x0100#16 = .ok .init ∧ decode 0x030F#16 = .ok (.absorbn 15#4) ∧ decode 0x0AFF#16 = .ok (.hfin 255#8) := by decide

/-- IllegalEncodingsExactly, IllegalCommandResponse: an ill-formed word, alone and first on the command channel. The operands
that the statements about format Z commands and about ABSORBN say are refused: one of each. -/
theorem witness_illegal :
    (Fields.ofWord 0x0B00#16).wellFormed = false ∧ (sent [0x0B00#16]).Ready [0x0B00#16] ∧ (0x01#8 : Byte) ≠ 0#8 ∧
      (0x10#8 : Byte).extractLsb' 4 4 ≠ 0#4 := by
  unfold State.Ready
  decide

/-- StepRunsTheDecodedCommand, FaultIsNotSticky: a legal word first, and a legal word after an illegal one. -/
theorem witness_step :
    (sent [0x0241#16]).Ready (0x0241#16 :: []) ∧ decode 0x0241#16 = .ok (.absorb 0x41#8) ∧
      (sent [0xFFFF#16, 0x0241#16]).Ready (0xFFFF#16 :: 0x0241#16 :: []) ∧ (Fields.ofWord 0xFFFF#16).wellFormed = false := by
  unfold State.Ready
  decide

/-- OneResponsePerCommand, ChannelsDoNotInfluenceCommands, RunAnswersEveryWord: two valid states with one engine and different
channels, and a valid state with words sent. -/
theorem witness_channels :
    (sent [0x0800#16, 0x0310#16]).Inv ∧ (sent [0x0800#16, 0x0310#16]).engine = State.reset.engine ∧
      sent [0x0800#16, 0x0310#16] ≠ State.reset ∧ (sent [0x0800#16, 0x0310#16]).Ready [0x0800#16, 0x0310#16] := by
  unfold State.Inv State.Ready
  decide

/-- ResetEvent, IdleStepChangesNothing: reset asserted; no reset and no word. -/
theorem witness_reset_idle : (stopped 5#8).hostReset.resetIn = true ∧ (stopped 5#8).Ready [] := by
  unfold State.Ready
  decide

/-- CrushProcedure: a valid engine, the last pair, and an order of the pairs other than the upward one. -/
theorem witness_crush :
    absorbed41.valid = true ∧ (127#8 : Byte) < 128#8 ∧ (List.range 128).reverse.Perm (List.range 128) ∧
      (List.range 128).reverse ≠ List.range 128 :=
  ⟨by decide, by decide, List.reverse_perm _, by decide +kernel⟩

/-- ShuffleProperties: an instruction under each of the four cases. -/
theorem witness_shuffle_cases :
    let case : Instr → Prop := fun i => i = .shuffle ∨ i = .abstop ∨ (∃ x, i = .absorbn x) ∨ ∃ b, i = .absorb b
    case .shuffle ∧ case .abstop ∧ case (.absorbn 15#4) ∧ case (.absorb 255#8) ∧ (stopped 128#8).Inv :=
  ⟨.inl rfl, .inr (.inl rfl), .inr (.inr (.inl ⟨_, rfl⟩)), .inr (.inr (.inr ⟨_, rfl⟩)), witness_inv.2.2.2.1⟩

/-- AbsorbFrameWithoutShuffle, AbsorptionsBetweenShuffles: the largest `a` of the one, the `a` of the other. -/
theorem witness_absorption :
    (stopped 126#8).Inv ∧ (stopped 126#8).engine.a ≤ 126#8 ∧ Engine.reset.valid = true ∧ Engine.reset.a = 0#8 := by
  unfold State.Inv
  decide

/-- WriteSummary, SqueezeZero, the shuffle conditions: each branch has a valid state. -/
theorem witness_branches :
    (stopped 0#8).Inv ∧ ¬ (0#8 < (stopped 0#8).engine.a) ∧ 0#8 < (stopped 1#8).engine.a ∧ ¬ 126#8 ≤ (stopped 125#8).engine.a ∧
      126#8 ≤ (stopped 126#8).engine.a ∧ (stopped 127#8).engine.a = 127#8 ∧ (stopped 128#8).engine.a = 128#8 ∧
      (stopped 125#8).Inv := by
  unfold State.Inv
  decide

/-- AbsorbSequence, LongSqueeze, HashCommandSequence: a valid state with the words of each sent, and one more behind them. -/
theorem witness_sequences :
    (sent (absorbsWords [0x41#8, 0x42#8] ++ [0x0600#16])).Inv ∧
      (sent (absorbsWords [0x41#8, 0x42#8] ++ [0x0600#16])).Ready (absorbsWords [0x41#8, 0x42#8] ++ [0x0600#16]) ∧
      (sent (squeezelWords 256 ++ [0x0600#16])).Inv ∧
      (sent (squeezelWords 256 ++ [0x0600#16])).Ready (squeezelWords 256 ++ [0x0600#16]) ∧
      (sent (hashWords [0x41#8] 32#8 ++ [0x0600#16])).Ready (hashWords [0x41#8] 32#8 ++ [0x0600#16]) ∧
      (sent (encode .init :: absorbsWords [] ++ [encode .abstop, encode (.absorb 0#8), encode (.squeeze 0#8)] ++ [])).Ready
        (encode .init :: absorbsWords [] ++ [encode .abstop, encode (.absorb 0#8), encode (.squeeze 0#8)] ++ []) ∧
      (sent (absorbsWords [0x41#8] ++ [encode (.hfin 255#8)] ++ [])).engine = State.reset.engine ∧
      (sent (absorbsWords [0x41#8] ++ [encode (.hfin 255#8)] ++ [])).Ready (absorbsWords [0x41#8] ++ [encode (.hfin 255#8)] ++ []) := by
  unfold State.Inv State.Ready
  decide

/-- SqueezeIsDripsAndSplits: the two lengths at the end of their range. -/
theorem witness_split : (255#8 : Byte).toNat + (0#8 : Byte).toNat ≤ 255 ∧ (254#8 : Byte).toNat + (1#8 : Byte).toNat ≤ 255 ∧ 1 ≤ 1 := by
  decide

/-- AssemblerRefusesOutOfRange, PseudoInstructionsExpand: lines that are assembled and lines that are not. -/
theorem witness_assembler :
    assemble (.command 0x07#8 (some 255)) = .ok [0x07FF#16] ∧ assemble (.command 0x07#8 (some 256)) = .error .badOperand ∧
      assemble (.absorbs [255]) = .ok [0x02FF#16] ∧ assemble (.absorbs [255, 256]) = .error .badOperand ∧
      assemble (.hash [] 255) = .ok [0x0100#16, 0x0AFF#16] ∧ assemble (.hash [] 256) = .error .badOperand := by
  exact ⟨rfl, rfl, rfl, rfl, rfl, rfl⟩

/-- InvariantKeptByEveryStep: a valid state and its next state. -/
theorem witness_invariant_step : (stopped 127#8).Inv ∧ ∃ t, step ((stopped 127#8).hostSend 0x0400#16) = .next t ∧ t.engine.a = 128#8 :=
  ⟨witness_inv.2.2.1, _, rfl, rfl⟩

end Sys2Proof.Tests
end

/-!
The statements of spec/10_state.md: the invariant at reset and over a step, the values after INIT and reset, the channels
without influence, and the summary of writes (R34). Before them what a shuffle, an absorption and an extraction write.
-/

namespace Sys2Proof.Machine

/-! ### What a shuffle writes (R97, R100) -/

/-- A whip of the fixed length brings `i` back: 512 steps of `w` are 0 modulo 256 (R100). -/
theorem Engine.whip_whipLength_i (e : Engine) : (e.whip Config.whipLength).i = e.i := by
  have h : (BitVec.ofNat 8 Config.whipLength : Byte) = 0#8 := by decide
  rw [Engine.whip, Engine.setW_i, Engine.updates_i, h]
  simp

@[simp] theorem Engine.shuffle_i (e : Engine) : e.shuffle.i = e.i := by
  simp [Engine.shuffle_eq, Engine.whip_whipLength_i]

/-- The three whips of a shuffle add 6 to `w` (R100). -/
theorem Engine.shuffle_w_add_six (e : Engine) : e.shuffle.w = e.w + 6#8 := by
  rw [Engine.shuffle_w, BitVec.add_assoc, BitVec.add_assoc]
  rfl

/-! ### What an absorption writes (R85 to R89) -/

theorem Engine.SameRegisters.trans {e e' e'' : Engine} (h : e.SameRegisters e') (h' : e'.SameRegisters e'') :
    e.SameRegisters e'' := by
  obtain ⟨hi, hj, hk, hz, hw⟩ := h
  obtain ⟨hi', hj', hk', hz', hw'⟩ := h'
  exact ⟨hi'.trans hi, hj'.trans hj, hk'.trans hk, hz'.trans hz, hw'.trans hw⟩

theorem Engine.shuffleIfSaturated_of_eq {e : Engine} (h : e.a = 128#8) : e.shuffleIfSaturated = e.shuffle := by
  rw [Engine.shuffleIfSaturated_eq, if_pos h]

theorem Engine.shuffleIfSaturated_of_ne {e : Engine} (h : e.a ≠ 128#8) : e.shuffleIfSaturated = e := by
  rw [Engine.shuffleIfSaturated_eq, if_neg h]

/-- After its test an absorption, nibble or stop, writes no register but `a`. -/
theorem Engine.absorption_sameRegisters (e : Engine) (o : Option Nibble) :
    e.shuffleIfSaturated.SameRegisters (e.absorption o) := by
  cases o <;> exact ⟨rfl, rfl, rfl, rfl, rfl⟩

theorem Engine.absorption_a (e : Engine) (o : Option Nibble) : (e.absorption o).a = e.shuffleIfSaturated.a + 1#8 := by
  cases o <;> rfl

/-- No absorption writes `z`, whether it shuffles or not (R34). -/
theorem Engine.absorption_z (e : Engine) (o : Option Nibble) : (e.absorption o).z = e.z := by
  obtain ⟨-, -, -, hz, -⟩ := e.absorption_sameRegisters o
  rw [hz, Engine.shuffleIfSaturated_eq]
  split <;> simp

/-- An absorption that meets saturation: one shuffle, and `a` counts this absorption alone. -/
theorem Engine.absorption_of_eq {e : Engine} (h : e.a = 128#8) (o : Option Nibble) :
    (e.absorption o).w = e.w + 6#8 ∧ (e.absorption o).a = 1#8 := by
  obtain ⟨-, -, -, -, hw⟩ := e.absorption_sameRegisters o
  rw [hw, Engine.absorption_a, Engine.shuffleIfSaturated_of_eq h]
  exact ⟨e.shuffle_w_add_six, by simp⟩

/-- An absorption that does not: no register but `a` changes. -/
theorem Engine.absorption_of_ne {e : Engine} (h : e.a ≠ 128#8) (o : Option Nibble) :
    e.SameRegisters (e.absorption o) ∧ (e.absorption o).a = e.a + 1#8 := by
  have hr := e.absorption_sameRegisters o
  have ha := e.absorption_a o
  rw [Engine.shuffleIfSaturated_of_ne h] at hr ha
  exact ⟨hr, ha⟩

/-- The writes of one absorption, by whether it shuffles (R34). -/
theorem Engine.absorption_writes (e : Engine) (o : Option Nibble) :
    (e.absorption o).z = e.z ∧
      if e.a = 128#8 then (e.absorption o).w = e.w + 6#8 ∧ (e.absorption o).a = 1#8
      else e.SameRegisters (e.absorption o) ∧ (e.absorption o).a = e.a + 1#8 := by
  refine ⟨e.absorption_z o, ?_⟩
  split
  case isTrue h => exact Engine.absorption_of_eq h o
  case isFalse h => exact Engine.absorption_of_ne h o

/-- The stop marker that meets no saturation leaves the table too (R89). -/
theorem Engine.absorbStop_of_ne {e : Engine} (h : e.a ≠ 128#8) : e.absorbStop = e.setA (e.a + 1#8) := by
  rw [Engine.absorbStop_eq, Engine.shuffleIfSaturated_of_ne h]

/-- The writes of ABSTOP, by whether it shuffles; it adds to those of an absorption that the table stays (R34). -/
theorem Engine.absorbStop_writes (e : Engine) :
    e.absorbStop.z = e.z ∧
      if e.a = 128#8 then e.absorbStop.w = e.w + 6#8 ∧ e.absorbStop.a = 1#8
      else e.SameRegisters e.absorbStop ∧ e.SameTableExcept e.absorbStop [] ∧ e.absorbStop.a = e.a + 1#8 := by
  refine ⟨e.absorption_z none, ?_⟩
  split
  case isTrue h => exact Engine.absorption_of_eq h none
  case isFalse h =>
    rw [Engine.absorbStop_of_ne h]
    exact ⟨⟨rfl, rfl, rfl, rfl, rfl⟩, fun _ _ => rfl, rfl⟩

/-- ABSORB is two absorptions (R87). -/
theorem Engine.absorbByte_eq_absorptions (e : Engine) (b : Byte) :
    e.absorbByte b = (e.absorption (some (lowNibble b))).absorption (some (highNibble b)) := rfl

theorem Engine.absorbByte_z (e : Engine) (b : Byte) : (e.absorbByte b).z = e.z := by
  rw [Engine.absorbByte_eq_absorptions, Engine.absorption_z, Engine.absorption_z]

/-- At `a = 127` the second nibble meets saturation. -/
theorem Engine.absorbByte_of_eq_127 {e : Engine} (h : e.a = 127#8) (b : Byte) :
    (e.absorbByte b).w = e.w + 6#8 ∧ (e.absorbByte b).a = 1#8 := by
  obtain ⟨⟨-, -, -, -, hw⟩, ha⟩ := Engine.absorption_of_ne (e := e) (by simp [h]) (some (lowNibble b))
  have h2 := Engine.absorption_of_eq (ha.trans (by rw [h]; rfl)) (some (highNibble b))
  rwa [hw] at h2

/-- At `a = 128` the first nibble meets it. -/
theorem Engine.absorbByte_of_eq_128 {e : Engine} (h : e.a = 128#8) (b : Byte) :
    (e.absorbByte b).w = e.w + 6#8 ∧ (e.absorbByte b).a = 2#8 := by
  obtain ⟨hw, ha⟩ := Engine.absorption_of_eq h (some (lowNibble b))
  obtain ⟨⟨-, -, -, -, hw'⟩, ha'⟩ :=
    Engine.absorption_of_ne (e := e.absorption (some (lowNibble b))) (by simp [ha]) (some (highNibble b))
  exact ⟨hw'.trans hw, ha'.trans (by rw [ha]; rfl)⟩

/-- At any other `a` neither does. -/
theorem Engine.absorbByte_of_ne {e : Engine} (h127 : e.a ≠ 127#8) (h128 : e.a ≠ 128#8) (b : Byte) :
    e.SameRegisters (e.absorbByte b) ∧ (e.absorbByte b).a = e.a + 2#8 := by
  obtain ⟨hr, ha⟩ := Engine.absorption_of_ne h128 (some (lowNibble b))
  have hne : (e.absorption (some (lowNibble b))).a ≠ 128#8 := by rw [ha]; bv_omega
  obtain ⟨hr', ha'⟩ := Engine.absorption_of_ne hne (some (highNibble b))
  refine ⟨hr.trans hr', ha'.trans ?_⟩
  rw [ha, BitVec.add_assoc]
  rfl

/-- The writes of ABSORB, by which of its nibbles shuffles (R34). -/
theorem Engine.absorbByte_writes (e : Engine) (b : Byte) :
    (e.absorbByte b).z = e.z ∧
      if e.a = 127#8 then (e.absorbByte b).w = e.w + 6#8 ∧ (e.absorbByte b).a = 1#8
      else if e.a = 128#8 then (e.absorbByte b).w = e.w + 6#8 ∧ (e.absorbByte b).a = 2#8
      else e.SameRegisters (e.absorbByte b) ∧ (e.absorbByte b).a = e.a + 2#8 := by
  refine ⟨e.absorbByte_z b, ?_⟩
  split
  case isTrue h => exact Engine.absorbByte_of_eq_127 h b
  case isFalse h127 =>
    split
    case isTrue h => exact Engine.absorbByte_of_eq_128 h b
    case isFalse h128 => exact Engine.absorbByte_of_ne h127 h128 b

/-! ### What an extraction writes (R105, R106, R122) -/

theorem Engine.shuffleIfUnflushed_w (e : Engine) : e.shuffleIfUnflushed.w = if 0#8 < e.a then e.w + 6#8 else e.w := by
  rw [Engine.shuffleIfUnflushed_eq]
  split
  · exact e.shuffle_w_add_six
  · rfl

@[simp] theorem Engine.squeeze_a (e : Engine) (r : Nat) : (e.squeeze r).1.a = 0#8 := by simp [Engine.squeeze]

theorem Engine.squeeze_w (e : Engine) (r : Nat) : (e.squeeze r).1.w = if 0#8 < e.a then e.w + 6#8 else e.w := by
  rw [Engine.squeeze, Engine.emitBytes_w, Engine.shuffleIfUnflushed_w]

/-- A squeeze of no bytes does not write `z`. -/
theorem Engine.squeeze_zero_z (e : Engine) : (e.squeeze 0).1.z = e.z := by
  rw [Engine.squeeze, Engine.emitBytes_zero, Engine.shuffleIfUnflushed_z]

theorem Engine.drip_a (e : Engine) : e.drip.a = 0#8 := by simp [Engine.drip]

theorem Engine.drip_w (e : Engine) : e.drip.w = if 0#8 < e.a then e.w + 6#8 else e.w := by
  rw [Engine.drip, Engine.output_w, Engine.update_w, Engine.shuffleIfUnflushed_w]

/-- With `a` in range, one of the two nibbles of ABSORB shuffles exactly when `a` is 127 or 128; `a` is positive afterwards. -/
theorem Engine.absorbByte_a_pos_and_w {e : Engine} (hle : e.a ≤ 128#8) (b : Byte) :
    0#8 < (e.absorbByte b).a ∧ (e.absorbByte b).w = if 127#8 ≤ e.a then e.w + 6#8 else e.w := by
  by_cases h127 : e.a = 127#8
  · obtain ⟨hw, ha⟩ := Engine.absorbByte_of_eq_127 h127 b
    simp [hw, ha, h127]
  by_cases h128 : e.a = 128#8
  · obtain ⟨hw, ha⟩ := Engine.absorbByte_of_eq_128 h128 b
    simp [hw, ha, h128]
  obtain ⟨⟨-, -, -, -, hw⟩, ha⟩ := Engine.absorbByte_of_ne h127 h128 b
  have hlt : ¬ 127#8 ≤ e.a := by bv_omega
  rw [if_neg hlt, ha]
  exact ⟨by bv_omega, hw⟩

/-- One of the three absorptions that begin HFIN shuffles exactly when `a` is 126, 127 or 128; `a` is positive after them. -/
theorem Engine.absorbStop_absorbByte_a_pos_and_w {e : Engine} (hle : e.a ≤ 128#8) (r : Byte) :
    0#8 < (e.absorbStop.absorbByte r).a ∧
      (e.absorbStop.absorbByte r).w = if 126#8 ≤ e.a then e.w + 6#8 else e.w := by
  by_cases h128 : e.a = 128#8
  · obtain ⟨hw, ha⟩ : e.absorbStop.w = e.w + 6#8 ∧ e.absorbStop.a = 1#8 := Engine.absorption_of_eq h128 none
    have hb := Engine.absorbByte_a_pos_and_w (e := e.absorbStop) (by simp [ha]) r
    simpa [hw, ha, h128] using hb
  · have hs := Engine.absorbStop_of_ne h128
    have hb := Engine.absorbByte_a_pos_and_w (e := e.absorbStop) (by rw [hs, Engine.setA_a]; bv_omega) r
    have hiff : 127#8 ≤ e.a + 1#8 ↔ 126#8 ≤ e.a := by bv_omega
    simpa only [hs, Engine.setA_a, Engine.setA_w, hiff] using hb

theorem Engine.hashTail_a (e : Engine) (r : Byte) : (e.hashTail r).1.a = 0#8 := Engine.squeeze_a _ _

/-- HFIN shuffles once before it squeezes, and once more if its absorptions do (R122). -/
theorem Engine.hashTail_w {e : Engine} (hle : e.a ≤ 128#8) (r : Byte) :
    (e.hashTail r).1.w = if 126#8 ≤ e.a then e.w + 12#8 else e.w + 6#8 := by
  obtain ⟨hpos, hw⟩ := Engine.absorbStop_absorbByte_a_pos_and_w hle r
  rw [Engine.hashTail, Engine.squeeze_w, if_pos hpos, hw]
  split
  · rw [BitVec.add_assoc]
    rfl
  · rfl

/-- HFIN with the operand 0 emits nothing and does not write `z`. -/
theorem Engine.hashTail_zero_z (e : Engine) : (e.hashTail 0#8).1.z = e.z :=
  calc (e.hashTail 0#8).1.z = (e.absorbStop.absorbByte 0#8).z := Engine.squeeze_zero_z _
    _ = e.absorbStop.z := Engine.absorbByte_z _ _
    _ = e.z := Engine.absorption_z e none

/-! ### The statements -/

/-- Settles O39: the reset engine is INIT's, and the check of it computes. -/
theorem invariantAtReset : Obligations.InvariantAtReset := Engine.reset_valid

/-- Settles O12: INIT leaves the reset engine from any state, and its table reads `S[v] = v`. -/
theorem initialAndResetValues : Obligations.InitialAndResetValues := by
  have hread : ∀ v : Byte, Engine.reset.read v = v := Table.read_identity
  exact ⟨fun s => ⟨_, exec_init s, hread, rfl, rfl, rfl, rfl, rfl, rfl⟩, hread, rfl, rfl, rfl, rfl, rfl, rfl⟩

/-- The invariant in the words of R22, R24 and R25. -/
theorem State.Inv.bijective_and_odd_and_le {t : State} (h : t.Inv) :
    Function.Bijective t.engine.read ∧ t.engine.w.toNat % 2 = 1 ∧ t.engine.a.toNat ≤ 128 := by
  obtain ⟨htable, hw, ha⟩ := (Engine.valid_iff t.engine).mp h
  have hodd : ∀ w : Byte, w.getLsbD 0 = true → w.toNat % 2 = 1 := by decide
  exact ⟨htable.bijective, hodd _ hw, ha⟩

/-- Every step that answers a next state keeps the invariant. -/
theorem step_inv {s t : State} (hs : s.Inv) (h : step s = .next t) : t.Inv := by
  obtain ⟨-, rfl⟩ | ⟨-, rfl⟩ | ⟨cmd, rest, -, ⟨r, -, rfl⟩ | ⟨i, -, hexec⟩⟩ := step_next h
  case inl => exact Engine.reset_valid
  case inr.inl => exact hs
  case inr.inr.inl => exact hs
  case inr.inr.inr =>
    rw [exec_next hexec]
    exact effect_valid hs i

/-- Settles O40: reset, an idle step, an illegal word and a command each keep the invariant. -/
theorem invariantKeptByEveryStep : Obligations.InvariantKeptByEveryStep := by
  intro s t hs h
  have ht := step_inv hs h
  exact ⟨ht, ht.bijective_and_odd_and_le⟩

/-- Settles O10: an illegal word leaves both engines, and the effect of a command is a function of the engine. -/
theorem channelsDoNotInfluenceCommands : Obligations.ChannelsDoNotInfluenceCommands := by
  intro s s' cmd hs he
  have hs' : s'.Inv := by rw [State.Inv, he]; exact hs
  cases hd : decode cmd with
  | illegal r =>
    exact ⟨_, _, .illegal, [], runWord_of_illegal hd s, runWord_of_illegal hd s', he, s.raiseIllegal_answers,
      s'.raiseIllegal_answers⟩
  | ok i =>
    have h' : runWord cmd s' = .next (s'.complete (effect i s.engine)) := by
      rw [runWord_of_ok hd, exec_of_inv hs', he]
    exact ⟨_, _, .ok, (effect i s.engine).2, (runWord_of_ok hd s).trans (exec_of_inv hs i), h', rfl,
      s.complete_answers _, s'.complete_answers _⟩

/-- Settles O43: each row of R34 is what the effect of its command writes. -/
theorem writeSummary : Obligations.WriteSummary := by
  intro s i hs
  obtain ⟨-, -, hle⟩ := (Engine.valid_iff s.engine).mp hs
  refine ⟨_, exec_of_inv hs i, ?_⟩
  cases i with
  | init => exact Engine.initialise_eq _
  | absorb b => exact s.engine.absorbByte_writes b
  | absorbn x => exact s.engine.absorption_writes (some x)
  | abstop => exact s.engine.absorbStop_writes
  | shuffle => exact ⟨Engine.shuffle_i _, Engine.shuffle_z _, Engine.shuffle_w_add_six _, Engine.shuffle_a _⟩
  | drip => exact ⟨Engine.drip_a _, Engine.drip_w _⟩
  | squeeze r =>
    refine ⟨Engine.squeeze_a _ _, Engine.squeeze_w _ _, ?_⟩
    rintro rfl
    exact s.engine.squeeze_zero_z
  | update => exact ⟨Engine.update_z _, Engine.update_w _, Engine.update_a _⟩
  | output => exact ⟨rfl, rfl, rfl, rfl, rfl, fun _ _ => rfl⟩
  | hfin r =>
    refine ⟨Engine.hashTail_a _ _, Engine.hashTail_w hle r, ?_⟩
    rintro rfl
    exact s.engine.hashTail_zero_z

end Sys2Proof.Machine

/-!
The statements of spec/30_encoding.md: the encoding (R61 to R65), responses and runs (R70), the assembler (R71 to R74). Before
them what the decoder reads in each row of the opcode map, said once per format.
-/

namespace Sys2Proof

/-! ### The rows of the opcode map (R63) -/

/-- An opcode is unassigned, or its row has the format Z, B or N (R63). -/
theorem opcode_cases : ∀ op : Byte, (op = 0x00#8 ∨ 0x0A#8 < op) ∨ op ∈ Fields.formatZ ∨
    (op = 0x02#8 ∨ op = 0x07#8 ∨ op = 0x0A#8) ∨ op = 0x03#8 := by decide

theorem decodeFields_of_unassigned {op : Byte} (h : op = 0x00#8 ∨ 0x0A#8 < op) (imm8 : Byte) :
    decodeFields op imm8 = .illegal .unknownOpcode := by
  obtain rfl | hlt := h
  · rfl
  · have hne : ∀ k : Byte, k ≤ 0x0A#8 → op ≠ k := fun k hk he => by bv_omega
    simp [decodeFields, hne]

theorem decodeFields_of_formatZ {op : Byte} (h : op ∈ Fields.formatZ) :
    ∃ i, opcode i = op ∧ operand i = 0x00#8 ∧ ∀ imm8, decodeFields op imm8 = decodeZ i imm8 := by
  simp only [Fields.formatZ, List.mem_cons, List.not_mem_nil, or_false] at h
  obtain rfl | rfl | rfl | rfl | rfl | rfl := h
  · exact ⟨.init, rfl, rfl, fun _ => rfl⟩
  · exact ⟨.abstop, rfl, rfl, fun _ => rfl⟩
  · exact ⟨.shuffle, rfl, rfl, fun _ => rfl⟩
  · exact ⟨.drip, rfl, rfl, fun _ => rfl⟩
  · exact ⟨.update, rfl, rfl, fun _ => rfl⟩
  · exact ⟨.output, rfl, rfl, fun _ => rfl⟩

theorem decodeFields_of_formatB {op : Byte} (h : op = 0x02#8 ∨ op = 0x07#8 ∨ op = 0x0A#8) (imm8 : Byte) :
    ∃ i, opcode i = op ∧ operand i = imm8 ∧ decodeFields op imm8 = .ok i := by
  obtain rfl | rfl | rfl := h
  · exact ⟨.absorb imm8, rfl, rfl, rfl⟩
  · exact ⟨.squeeze imm8, rfl, rfl, rfl⟩
  · exact ⟨.hfin imm8, rfl, rfl, rfl⟩

theorem decodeFields_absorbn (imm8 : Byte) : decodeFields 0x03#8 imm8 = decodeN .absorbn imm8 := rfl

/-! ### The tests of the decoder (R64) -/

theorem decodeFields_of_strayOperand {op imm8 : Byte} (hz : op ∈ Fields.formatZ) (h : imm8 ≠ 0x00#8) :
    decodeFields op imm8 = .illegal .strayOperand := by
  obtain ⟨i, -, -, hrow⟩ := decodeFields_of_formatZ hz
  rw [hrow, decodeZ, if_neg h]

theorem decodeFields_of_nibbleOutOfRange {imm8 : Byte} (h : imm8.extractLsb' 4 4 ≠ 0x0#4) :
    decodeFields 0x03#8 imm8 = .illegal .nibbleOutOfRange := by
  rw [decodeFields_absorbn, decodeN, if_neg h]

/-- What passes the three tests is the instruction with that opcode and that operand (R64 step 5). -/
theorem decodeFields_of_tests {op imm8 : Byte} (hop : ¬(op = 0x00#8 ∨ 0x0A#8 < op))
    (hstray : ¬(op ∈ Fields.formatZ ∧ imm8 ≠ 0x00#8)) (hnibble : ¬(op = 0x03#8 ∧ imm8.extractLsb' 4 4 ≠ 0x0#4)) :
    ∃ i, opcode i = op ∧ operand i = imm8 ∧ decodeFields op imm8 = .ok i := by
  obtain hu | hz | hb | rfl := opcode_cases op
  · exact absurd hu hop
  · obtain ⟨i, hi, ho, hrow⟩ := decodeFields_of_formatZ hz
    have himm : imm8 = 0x00#8 := by_contra fun h => hstray ⟨hz, h⟩
    exact ⟨i, hi, ho.trans himm.symm, by rw [hrow, decodeZ, if_pos himm]⟩
  · exact decodeFields_of_formatB hb imm8
  · have himm : imm8.extractLsb' 4 4 = 0x0#4 := by_contra fun h => hnibble ⟨rfl, h⟩
    exact ⟨.absorbn (imm8.extractLsb' 0 4), rfl, field_of_nibble imm8 himm, by rw [decodeFields_absorbn, decodeN, if_pos himm]⟩

/-- R65's list in the terms of R64's tests. -/
theorem Fields.wellFormed_iff (op imm8 : Byte) :
    (⟨op, imm8⟩ : Fields).wellFormed = true ↔
      ¬(op = 0x00#8 ∨ 0x0A#8 < op) ∧ ¬(op ∈ formatZ ∧ imm8 ≠ 0x00#8) ∧ ¬(op = 0x03#8 ∧ imm8.extractLsb' 4 4 ≠ 0x0#4) := by
  have hassigned : ∀ op : Byte, 0x01#8 ≤ op ∧ op ≤ 0x0A#8 ↔ ¬(op = 0x00#8 ∨ 0x0A#8 < op) := by decide
  have halphabet : ∀ imm8 : Byte, imm8 ≤ 0x0F#8 ↔ imm8.extractLsb' 4 4 = 0x0#4 := by decide
  simp only [wellFormed, opcodeAssigned, noStrayOperand, nibbleInAlphabet, Bool.and_eq_true, Bool.or_eq_true, decide_eq_true_eq,
    hassigned, halphabet, and_assoc]
  simp [imp_iff_not_or]

theorem Fields.not_mem_formatZ_of_formatB {op : Byte} (h : op = 0x02#8 ∨ op = 0x07#8 ∨ op = 0x0A#8) : op ∉ formatZ := by
  obtain rfl | rfl | rfl := h <;> decide

theorem Fields.wellFormed_formatZ_iff {op : Byte} (hz : op ∈ formatZ) (imm8 : Byte) :
    (⟨op, imm8⟩ : Fields).wellFormed = true ↔ imm8 = 0x00#8 := by
  have hrow : ∀ op ∈ formatZ, ¬(op = 0x00#8 ∨ 0x0A#8 < op) ∧ op ≠ 0x03#8 := by decide
  obtain ⟨hop, hN⟩ := hrow op hz
  simp [wellFormed_iff, hop, hz, hN]

theorem Fields.wellFormed_formatB {op : Byte} (hb : op = 0x02#8 ∨ op = 0x07#8 ∨ op = 0x0A#8) (imm8 : Byte) :
    (⟨op, imm8⟩ : Fields).wellFormed = true := by
  obtain rfl | rfl | rfl := hb <;> rfl

theorem Fields.wellFormed_absorbn_iff (imm8 : Byte) :
    (⟨0x03#8, imm8⟩ : Fields).wellFormed = true ↔ imm8.toNat < 16 := by
  revert imm8
  decide

theorem wellFormed_of_decodeFields {op imm8 : Byte} {i : Instr} (h : decodeFields op imm8 = .ok i) :
    (⟨op, imm8⟩ : Fields).wellFormed = true := by
  refine (Fields.wellFormed_iff op imm8).mpr ⟨fun hu => ?_, fun ⟨hz, h0⟩ => ?_, ?_⟩
  · cases (decodeFields_of_unassigned hu imm8).symm.trans h
  · cases (decodeFields_of_strayOperand hz h0).symm.trans h
  · rintro ⟨rfl, h0⟩
    cases (decodeFields_of_nibbleOutOfRange h0).symm.trans h

theorem decodeFields_of_wellFormed {op imm8 : Byte} (h : (⟨op, imm8⟩ : Fields).wellFormed = true) :
    ∃ i, opcode i = op ∧ operand i = imm8 ∧ decodeFields op imm8 = .ok i := by
  obtain ⟨hop, hstray, hnibble⟩ := (Fields.wellFormed_iff op imm8).mp h
  exact decodeFields_of_tests hop hstray hnibble

/-- An instruction that is read has the fields it was read from. -/
theorem opcode_operand_of_decodeFields {op imm8 : Byte} {i : Instr} (h : decodeFields op imm8 = .ok i) :
    opcode i = op ∧ operand i = imm8 := by
  obtain ⟨i', hop, himm, h'⟩ := decodeFields_of_wellFormed (wellFormed_of_decodeFields h)
  obtain rfl : i' = i := Decoded.ok.inj (h'.symm.trans h)
  exact ⟨hop, himm⟩

/-- A word decodes to an instruction exactly when it is well-formed (R65). -/
theorem exists_decode_iff (cmd : Word) : (∃ i, decode cmd = .ok i) ↔ (Fields.ofWord cmd).wellFormed = true := by
  refine ⟨fun ⟨i, h⟩ => wellFormed_of_decodeFields h, fun h => ?_⟩
  obtain ⟨i, -, -, hi⟩ := decodeFields_of_wellFormed h
  exact ⟨i, hi⟩

/-! ### The encoder against the decoder (R61 to R64) -/

theorem decode_encode (i : Instr) : decode (encode i) = .ok i := by
  rw [encode, decode_append]
  cases i with
  | absorbn x =>
    obtain ⟨hhigh, hlow⟩ := nibble_field x
    rw [opcode, operand, decodeFields_absorbn, decodeN, if_pos hhigh, hlow]
  | init | absorb | abstop | shuffle | drip | squeeze | update | output | hfin => rfl

theorem eq_encode_of_decode {cmd : Word} {i : Instr} (h : decode cmd = .ok i) : cmd = encode i := by
  obtain ⟨hop, himm⟩ := opcode_operand_of_decodeFields h
  rw [encode, hop, himm, fields_append]

theorem wellFormed_opcode_operand (i : Instr) : (⟨opcode i, operand i⟩ : Fields).wellFormed = true := by
  rw [← Laws.ofWord_encode]
  exact (exists_decode_iff _).mp ⟨i, decode_encode i⟩

/-! ### Mask and match (R63) -/

/-- The bits of the operand field that a row fixes: the lower half of its mask. -/
def operandMask : Instr → Byte
  | .init | .abstop | .shuffle | .drip | .update | .output => 0xFF#8
  | .absorb _ | .squeeze _ | .hfin _ => 0x00#8
  | .absorbn _ => 0xF0#8

theorem rowMask_eq (i : Instr) : rowMask i = 0xFF#8 ++ operandMask i := by
  cases i <;> simp only [rowMask, operandMask] <;> decide

theorem rowMatch_eq (i : Instr) : rowMatch i = opcode i ++ 0x00#8 := by
  cases i <;> simp only [rowMatch, opcode] <;> decide

/-- A row is selected by its opcode and by zeros in the operand bits it fixes. -/
theorem append_and_rowMask_iff (op imm8 : Byte) (i : Instr) :
    (op ++ imm8 : Word) &&& rowMask i = rowMatch i ↔ op = opcode i ∧ imm8 &&& operandMask i = 0x00#8 := by
  rw [rowMask_eq, rowMatch_eq, BitVec.and_append, show (0xFF#8 : Byte) = BitVec.allOnes 8 from rfl, BitVec.and_allOnes,
    append_inj_iff]

theorem and_rowMask_iff (cmd : Word) (i : Instr) :
    cmd &&& rowMask i = rowMatch i ↔
      cmd.extractLsb' 8 8 = opcode i ∧ cmd.extractLsb' 0 8 &&& operandMask i = 0x00#8 := by
  rw [← append_and_rowMask_iff, fields_append]

/-- The operand bits a row fixes are all that R65 asks of the operand of its opcode. -/
theorem operand_and_operandMask_iff (imm8 : Byte) (i : Instr) :
    imm8 &&& operandMask i = 0x00#8 ↔ (⟨opcode i, imm8⟩ : Fields).wellFormed = true := by
  cases i with
  | absorb | squeeze | hfin => exact iff_of_true BitVec.and_zero rfl
  | absorbn =>
    change imm8 &&& 0xF0#8 = 0x00#8 ↔ (⟨0x03#8, imm8⟩ : Fields).wellFormed = true
    revert imm8
    decide
  | init | abstop | shuffle | drip | update | output => revert imm8; decide

theorem encode_and_rowMask (i : Instr) : encode i &&& rowMask i = rowMatch i :=
  (append_and_rowMask_iff _ _ i).mpr ⟨rfl, (operand_and_operandMask_iff _ i).mpr (wellFormed_opcode_operand i)⟩

theorem exists_decode_of_and_rowMask {cmd : Word} {i : Instr} (h : cmd &&& rowMask i = rowMatch i) :
    ∃ i', decode cmd = .ok i' ∧ opcode i' = opcode i := by
  obtain ⟨hop, himm⟩ := (and_rowMask_iff cmd i).mp h
  obtain ⟨i', hop', -, hi'⟩ := decodeFields_of_wellFormed ((operand_and_operandMask_iff _ i).mp himm)
  exact ⟨i', by rw [decode, hop, hi'], hop'⟩

/-! ### The number of legal words (R65) -/

/-- A word as its two fields. -/
def wordEquivFields : Word ≃ Byte × Byte where
  toFun cmd := (cmd.extractLsb' 8 8, cmd.extractLsb' 0 8)
  invFun p := p.1 ++ p.2
  left_inv := fields_append
  right_inv p := Prod.ext (field_op p.1 p.2) (field_imm8 p.1 p.2)

/-- How many operands are legal with an opcode. -/
def legalOperands (op : Byte) : Nat :=
  if op = 0x00#8 ∨ 0x0A#8 < op then 0 else if op ∈ Fields.formatZ then 1 else if op = 0x03#8 then 16 else 256

theorem card_wellFormed_operands (op : Byte) :
    (Finset.univ.filter fun imm8 : Byte => (⟨op, imm8⟩ : Fields).wellFormed = true).card = legalOperands op := by
  unfold legalOperands
  split
  case isTrue hu => simp [Fields.wellFormed_iff, hu]
  case isFalse hu =>
    split
    case isTrue hz => simp [Fields.wellFormed_formatZ_iff hz, Finset.filter_eq']
    case isFalse hz =>
      split
      case isTrue hN =>
        subst hN
        decide
      case isFalse hN => simp [Fields.wellFormed_iff, hu, hz, hN, ← FinEnum.card_eq_fintypeCard]

theorem card_wellFormed_words :
    (Finset.univ.filter fun cmd : Word => (Fields.ofWord cmd).wellFormed = true).card = 790 :=
  calc _ = (Finset.univ.filter fun p : Byte × Byte => (⟨p.1, p.2⟩ : Fields).wellFormed = true).card :=
        Finset.card_equiv wordEquivFields fun cmd => by
          simp only [Finset.mem_filter, Finset.mem_univ, true_and]
          rfl
    _ = ∑ op : Byte, legalOperands op := by
        simp only [← card_wellFormed_operands, Finset.card_filter, Fintype.sum_prod_type]
    _ = 790 := by decide +kernel

namespace Machine

/-! ### The statements on the encoding -/

/-- Settles O1: both fields of a word are read back, and an instruction that is read has the fields it was read from. -/
theorem decodeInvertsEncode : Obligations.DecodeInvertsEncode :=
  ⟨decode_encode, fun _ _ => eq_encode_of_decode⟩

/-- Settles O2: a row's mask selects its opcode and asks of the operand what the decoder asks. -/
theorem rowSelectedByMaskAndMatch : Obligations.RowSelectedByMaskAndMatch := by
  refine ⟨fun cmd i h => ?_, fun cmd i h => exists_decode_of_and_rowMask h⟩
  rw [eq_encode_of_decode h]
  exact encode_and_rowMask i

/-- Settles O3: each clause is the decoder's own test, and the machine does with a word what the decoder reads. -/
theorem decodingProcedure : Obligations.DecodingProcedure := by
  intro cmd op imm8
  have hdecode : decode cmd = decodeFields op imm8 := rfl
  rw [hdecode]
  split
  case isTrue hu =>
    have h := decodeFields_of_unassigned hu imm8
    exact ⟨h, refused_of_illegal h⟩
  case isFalse hu =>
    split
    case isTrue hz =>
      have h := decodeFields_of_strayOperand hz.1 hz.2
      exact ⟨h, refused_of_illegal h⟩
    case isFalse hz =>
      split
      case isTrue hn =>
        have h : decodeFields op imm8 = .illegal .nibbleOutOfRange := by
          rw [hn.1]
          exact decodeFields_of_nibbleOutOfRange hn.2
        exact ⟨h, refused_of_illegal h⟩
      case isFalse hn =>
        obtain ⟨i, hop, himm, h⟩ := decodeFields_of_tests hu hz hn
        exact ⟨i, h, hop, himm, encodes_of_ok h⟩

theorem refused_of_not_wellFormed {cmd : Word} (h : (Fields.ofWord cmd).wellFormed = false) : Refused cmd := by
  cases hd : decode cmd with
  | illegal r => exact refused_of_illegal hd
  | ok i =>
    have h' := (exists_decode_iff cmd).mp ⟨i, hd⟩
    rw [h] at h'
    cases h'

/-- Settles O4: the decoder reads exactly the well-formed words, and each opcode has its number of operands. -/
theorem illegalEncodingsExactly : Obligations.IllegalEncodingsExactly :=
  ⟨exists_decode_iff, card_wellFormed_words, by decide, by decide, fun _ => refused_of_not_wellFormed⟩

/-- Settles O5: each of the words is the instruction's own. -/
theorem sampleWordsDecode : Obligations.SampleWordsDecode :=
  ⟨decode_encode .init, decode_encode (.absorb 0x41#8), decode_encode (.absorbn 0x5#4), decode_encode .abstop,
    decode_encode .shuffle, decode_encode .drip, decode_encode (.squeeze 0x10#8), decode_encode .update, decode_encode .output,
    decode_encode (.hfin 0x20#8)⟩

/-! ### Responses and runs (R49, R70, R156) -/

/-- Settles O6: a step with a word waiting runs that word, and a word that decodes is run as its instruction. -/
theorem stepRunsTheDecodedCommand : Obligations.StepRunsTheDecodedCommand :=
  fun _ _ _ _ hr hd => (step_of_word hr).trans (runWord_of_ok hd _)

/-- What one word does in a valid state: one response of the size its row gives, and the state stays valid. -/
theorem runWord_answers {s : State} (hs : s.Inv) (cmd : Word) :
    ∃ t data, runWord cmd s = .next t ∧ t.Inv ∧ s.Answers t (statusOf (decode cmd)) data ∧
      data.length = dataBytes (decode cmd) := by
  cases hd : decode cmd with
  | illegal r => exact ⟨_, [], runWord_of_illegal hd s, hs, s.raiseIllegal_answers, rfl⟩
  | ok i =>
    exact ⟨_, _, (runWord_of_ok hd s).trans (exec_of_inv hs i), effect_valid hs i, s.complete_answers _, effect_length _ i⟩

/-- Settles O9: an illegal word is answered with no data, a legal one with the bytes of its effect. -/
theorem oneResponsePerCommand : Obligations.OneResponsePerCommand := by
  refine ⟨rfl, rfl, fun st => by cases st <;> decide, fun s cmd hs => ?_⟩
  obtain ⟨t, data, hrun, -, hans, hlen⟩ := runWord_answers hs cmd
  exact ⟨t, data, hrun, hans, hlen⟩

/-- Settles O11, by induction on the words sent. -/
theorem runAnswersEveryWord : Obligations.RunAnswersEveryWord := by
  intro cmds
  induction cmds with
  | nil => exact fun s hs hr => ⟨s, [], rfl, hs, hr, by simp, by simp, rfl⟩
  | cons cmd rest ih =>
    intro s hs hr
    obtain ⟨u, d, hrun, hu, ⟨hstatus, hdata, hcmds, hreset⟩, hlen⟩ := runWord_answers (s := s.setCommandIn rest) hs cmd
    obtain ⟨t, ds, hruns, ht, hready, hstatus', hdata', hlen'⟩ := ih u hu ⟨hreset.trans hr.1, hcmds⟩
    refine ⟨t, d ++ ds, (core_run_succ _ ((step_of_word hr).trans hrun)).trans hruns, ht, hready, ?_, ?_, ?_⟩
    · simp [hstatus', hstatus]
    · simp [hdata', hdata]
    · simp [hlen, hlen']

/-! ### Long squeezes (R73, R107) -/

theorem Engine.shuffleIfUnflushed_of_a_zero {e : Engine} (h : e.a = 0#8) : e.shuffleIfUnflushed = e := by
  simp [Engine.shuffleIfUnflushed_eq, h]

theorem Engine.emitBytes_add (m n : Nat) (e : Engine) :
    e.emitBytes (m + n) = (((e.emitBytes m).1.emitBytes n).1, (e.emitBytes m).2 ++ ((e.emitBytes m).1.emitBytes n).2) := by
  induction m generalizing e with
  | zero => simp [Engine.emitBytes_zero]
  | succ m ih => simp [Nat.succ_add, Engine.emitBytes_succ, ih]

/-- With `a = 0` no squeeze shuffles, so a sequence of them is one pass of update and output pairs. -/
theorem effects_squeeze_of_a_zero (rs : List Byte) {e : Engine} (h : e.a = 0#8) :
    effects (rs.map .squeeze) e = e.emitBytes (rs.map BitVec.toNat).sum := by
  induction rs generalizing e with
  | nil => rfl
  | cons r rs ih =>
    have hr : effect (.squeeze r) e = e.emitBytes r.toNat := by
      rw [effect, Engine.squeeze, countOf, Engine.shuffleIfUnflushed_of_a_zero h]
    have ha : (e.emitBytes r.toNat).1.a = 0#8 := (e.emitBytes_a _).trans h
    rw [List.map_cons, effects, hr, ih ha, List.map_cons, List.sum_cons, Engine.emitBytes_add]

/-- Squeezes one after the other, at least one, are the squeeze of all their bytes (R107). -/
theorem effects_squeeze {rs : List Byte} (h : rs ≠ []) (e : Engine) :
    effects (rs.map .squeeze) e = e.squeeze (rs.map BitVec.toNat).sum := by
  cases rs with
  | nil => exact absurd rfl h
  | cons r rs =>
    have hr : effect (.squeeze r) e = e.shuffleIfUnflushed.emitBytes r.toNat := rfl
    have ha : (e.shuffleIfUnflushed.emitBytes r.toNat).1.a = 0#8 := Engine.squeeze_a e _
    rw [List.map_cons, effects, hr, effects_squeeze_of_a_zero rs ha, Engine.squeeze, List.map_cons, List.sum_cons,
      Engine.emitBytes_add]

/-- The operands of the expansion of SQUEEZEL n (R73). -/
def squeezelCounts (n : Nat) : List Byte :=
  if n = 0 then [0#8] else List.replicate (n / 255) 255#8 ++ if n % 255 = 0 then [] else [BitVec.ofNat 8 (n % 255)]

theorem squeezelWords_eq (n : Nat) : squeezelWords n = ((squeezelCounts n).map Instr.squeeze).map encode := by
  unfold squeezelWords squeezelCounts
  split
  · rfl
  · split <;> simp

theorem sum_squeezelCounts (n : Nat) : ((squeezelCounts n).map BitVec.toNat).sum = n := by
  have hdiv := Nat.div_add_mod' n 255
  have hlast : ((if n % 255 = 0 then [] else [BitVec.ofNat 8 (n % 255)]).map BitVec.toNat).sum = n % 255 := by
    have hmod : n % 255 < 256 := by omega
    split
    case isTrue h => rw [h]; rfl
    case isFalse => simp [Nat.mod_eq_of_lt hmod]
  unfold squeezelCounts
  split
  case isTrue h => simp [h]
  case isFalse =>
    rw [List.map_append, List.sum_append, hlast, List.map_replicate, List.sum_replicate_nat]
    exact hdiv

theorem squeezelCounts_ne_nil (n : Nat) : squeezelCounts n ≠ [] := by
  intro h
  have hn : 0 = n := by simpa [h] using sum_squeezelCounts n
  subst hn
  cases h

/-- A run over the words of instructions, from a valid state: their effects, one status OK each, the words behind them left. -/
theorem runs_of_encode (is : List Instr) (rest : List Word) (s : State) (hs : s.Inv) (hr : s.Ready (is.map encode ++ rest)) :
    ∃ t, runs (is.map encode).length s = .next t ∧ t.Ready rest ∧ t.Inv ∧ t.engine = (effects is s.engine).1 ∧
      t.statusOut = s.statusOut ++ List.replicate (is.map encode).length .ok ∧
      t.dataOut = s.dataOut ++ (effects is s.engine).2 :=
  runs_of_decode (is.map encode) is (by simp [decode_encode]) rest s hs hr

/-- Settles O32: the words are squeezes, at least one, of `n` bytes together. -/
theorem longSqueeze : Obligations.LongSqueeze := by
  intro n rest s hs hr
  have heff : effects ((squeezelCounts n).map .squeeze) s.engine = s.engine.squeeze n := by
    rw [effects_squeeze (squeezelCounts_ne_nil n), sum_squeezelCounts]
  rw [squeezelWords_eq] at hr ⊢
  obtain ⟨t, hrun, hready, -, hengine, hstatus, hdata⟩ := runs_of_encode _ rest s hs hr
  rw [heff] at hengine hdata
  exact ⟨t, hrun, hengine, hdata, Engine.emitBytes_length _ _, hready, hstatus⟩

/-! ### The assembler (R71 to R74, R124) -/

theorem asmByte_of_lt {n : Nat} (h : n < 256) : asmByte n = .ok (BitVec.ofNat 8 n) := if_pos h

theorem asmByte_of_not_lt {n : Nat} (h : ¬n < 256) : asmByte n = .error .badOperand := if_neg h

/-- A number is a byte operand exactly when it is the byte's value; it is never truncated. -/
theorem asmByte_eq_ok_iff (n : Nat) (b : Byte) : asmByte n = .ok b ↔ n = b.toNat := by
  have hb := b.isLt
  by_cases h : n < 256
  · rw [asmByte_of_lt h, Except.ok.injEq, ← BitVec.toNat_inj, BitVec.toNat_ofNat, Nat.mod_eq_of_lt h]
  · rw [asmByte_of_not_lt h]
    exact iff_of_false nofun (by omega)

theorem asmOperand_of_unassigned {op : Byte} (h : op = 0x00#8 ∨ 0x0A#8 < op) (n : Option Nat) :
    asmOperand op n = .error .badLine := by
  have hrow : ∀ op : Byte, op = 0x00#8 ∨ 0x0A#8 < op →
      ¬(op = 0x02#8 ∨ op = 0x07#8 ∨ op = 0x0A#8) ∧ op ≠ 0x03#8 ∧ ¬Fields.formatZ.contains op := by decide
  obtain ⟨hB, hN, hZ⟩ := hrow op h
  unfold asmOperand
  rw [if_neg hB, if_neg hN, if_neg hZ]

theorem asmOperand_of_formatZ {op : Byte} (h : op ∈ Fields.formatZ) (n : Option Nat) :
    asmOperand op n = if n = none then .ok 0x00#8 else .error .badOperand := by
  have hrow : ∀ op ∈ Fields.formatZ, ¬(op = 0x02#8 ∨ op = 0x07#8 ∨ op = 0x0A#8) ∧ op ≠ 0x03#8 := by decide
  obtain ⟨hB, hN⟩ := hrow op h
  unfold asmOperand
  rw [if_neg hB, if_neg hN, if_pos (List.contains_iff_mem.mpr h)]
  cases n <;> rfl

theorem asmOperand_none_of_formatB {op : Byte} (h : op = 0x02#8 ∨ op = 0x07#8 ∨ op = 0x0A#8) :
    asmOperand op none = .error .badOperand := if_pos h

theorem asmOperand_some_of_formatB {op : Byte} (h : op = 0x02#8 ∨ op = 0x07#8 ∨ op = 0x0A#8) (m : Nat) :
    asmOperand op (some m) = asmByte m := if_pos h

theorem asmOperand_absorbn_none : asmOperand 0x03#8 none = .error .badOperand := rfl

theorem asmOperand_absorbn_some (m : Nat) :
    asmOperand 0x03#8 (some m) = if m < 16 then asmByte m else .error .badOperand := rfl

/-- An operand is assembled exactly when it is the value of a legal operand field of the opcode, or absent on format Z. -/
theorem asmOperand_eq_ok_iff (op imm8 : Byte) (n : Option Nat) :
    asmOperand op n = .ok imm8 ↔
      (⟨op, imm8⟩ : Fields).wellFormed = true ∧ n = if op ∈ Fields.formatZ then none else some imm8.toNat := by
  obtain hu | hz | hb | rfl := opcode_cases op
  · rw [asmOperand_of_unassigned hu, Fields.wellFormed_iff]
    exact iff_of_false nofun fun h => h.1.1 hu
  · rw [asmOperand_of_formatZ hz, Fields.wellFormed_formatZ_iff hz, if_pos hz]
    by_cases hn : n = none
    · simp only [hn, if_true, Except.ok.injEq, and_true]
      exact eq_comm
    · simp [hn]
  · rw [if_neg (Fields.not_mem_formatZ_of_formatB hb)]
    cases n with
    | none => simp [asmOperand_none_of_formatB hb]
    | some m => simp [asmOperand_some_of_formatB hb, asmByte_eq_ok_iff, Fields.wellFormed_formatB hb]
  · rw [Fields.wellFormed_absorbn_iff, if_neg (show 0x03#8 ∉ Fields.formatZ by decide)]
    cases n with
    | none => simp [asmOperand_absorbn_none]
    | some m =>
      rw [asmOperand_absorbn_some, Option.some.injEq]
      by_cases hm : m < 16
      · rw [if_pos hm, asmByte_eq_ok_iff]
        exact ⟨fun h => ⟨h ▸ hm, h⟩, And.right⟩
      · rw [if_neg hm]
        exact iff_of_false nofun fun ⟨hlt, h⟩ => hm (h ▸ hlt)

/-- Settles O37: the operands that assemble are the legal operand fields, and each is the field of one instruction. -/
theorem assemblerRefusesOutOfRange : Obligations.AssemblerRefusesOutOfRange := by
  refine ⟨fun i => ?_, fun op n ws h => ?_⟩
  · have himm := (asmOperand_eq_ok_iff (opcode i) (operand i) _).mpr ⟨wellFormed_opcode_operand i, rfl⟩
    rw [assemble, himm, encode]
  · rw [assemble] at h
    cases himm : asmOperand op n with
    | error e =>
      rw [himm] at h
      cases h
    | ok imm8 =>
      rw [himm] at h
      obtain ⟨hwf, hn⟩ := (asmOperand_eq_ok_iff op imm8 n).mp himm
      obtain ⟨i, rfl, rfl, -⟩ := decodeFields_of_wellFormed hwf
      exact ⟨i, (Except.ok.inj h).symm, rfl, hn⟩

theorem asmBytes_of_lt {ns : List Nat} (h : ∀ n ∈ ns, n < 256) : asmBytes ns = .ok (ns.map (BitVec.ofNat 8)) := by
  induction ns with
  | nil => rfl
  | cons n ns ih =>
    obtain ⟨hn, hns⟩ := List.forall_mem_cons.mp h
    rw [asmBytes, asmByte_of_lt hn, ih hns]
    rfl

theorem asmBytes_of_not_lt {ns : List Nat} (h : ¬∀ n ∈ ns, n < 256) : asmBytes ns = .error .badOperand := by
  induction ns with
  | nil => exact absurd (fun _ hn => by cases hn) h
  | cons n ns ih =>
    by_cases hn : n < 256
    · have hns : ¬∀ m ∈ ns, m < 256 := fun hns => h (List.forall_mem_cons.mpr ⟨hn, hns⟩)
      rw [asmBytes, asmByte_of_lt hn, ih hns]
    · rw [asmBytes, asmByte_of_not_lt hn]

/-- A command word given as the base of its row plus the number of its operand. -/
theorem base_add_ofNat (base : Word) (op : Byte) (h : base = op ++ 0#8) {n : Nat} (hn : n < 256) :
    base + BitVec.ofNat 16 n = (op ++ BitVec.ofNat 8 n : Word) := by
  rw [← base_add_operand base op h, BitVec.setWidth_ofNat_of_le_of_lt (by decide) hn]

theorem encode_absorb_ofNat {n : Nat} (hn : n < 256) : encode (.absorb (BitVec.ofNat 8 n)) = 0x0200#16 + BitVec.ofNat 16 n :=
  (base_add_ofNat _ 0x02#8 rfl hn).symm

theorem encode_squeeze_ofNat {n : Nat} (hn : n < 256) : encode (.squeeze (BitVec.ofNat 8 n)) = 0x0700#16 + BitVec.ofNat 16 n :=
  (base_add_ofNat _ 0x07#8 rfl hn).symm

theorem encode_hfin_ofNat {n : Nat} (hn : n < 256) : encode (.hfin (BitVec.ofNat 8 n)) = 0x0A00#16 + BitVec.ofNat 16 n :=
  (base_add_ofNat _ 0x0A#8 rfl hn).symm

theorem absorbsWords_ofNat {ns : List Nat} (h : ∀ n ∈ ns, n < 256) :
    absorbsWords (ns.map (BitVec.ofNat 8)) = ns.map fun n => 0x0200#16 + BitVec.ofNat 16 n := by
  rw [absorbsWords, List.map_map]
  exact List.map_congr_left fun n hn => encode_absorb_ofNat (h n hn)

theorem assemble_absorbs (ns : List Nat) :
    assemble (.absorbs ns) =
      if ∀ n ∈ ns, n < 256 then .ok (ns.map fun n => 0x0200#16 + BitVec.ofNat 16 n) else .error .badOperand := by
  rw [assemble]
  by_cases h : ∀ n ∈ ns, n < 256
  · rw [if_pos h, asmBytes_of_lt h, ← absorbsWords_ofNat h]
  · rw [if_neg h, asmBytes_of_not_lt h]

theorem squeezelWords_literal (n : Nat) :
    squeezelWords n = if n = 0 then [0x0700#16] else
      List.replicate (n / 255) 0x07FF#16 ++ if 0 < n % 255 then [0x0700#16 + BitVec.ofNat 16 (n % 255)] else [] := by
  have hlt : n % 255 < 256 := by omega
  have h0 : encode (.squeeze 0#8) = 0x0700#16 := rfl
  have h255 : encode (.squeeze 255#8) = 0x07FF#16 := rfl
  simp only [squeezelWords, encode_squeeze_ofNat hlt, h0, h255, Nat.pos_iff_ne_zero, ite_not]

theorem assemble_hash (ns : List Nat) (r : Nat) :
    assemble (.hash ns r) =
      if (∀ n ∈ ns, n < 256) ∧ r < 256 then
        .ok (0x0100#16 :: (ns.map fun n => 0x0200#16 + BitVec.ofNat 16 n) ++ [0x0A00#16 + BitVec.ofNat 16 r])
      else .error .badOperand := by
  rw [assemble]
  by_cases hns : ∀ n ∈ ns, n < 256
  · by_cases hr : r < 256
    · have hinit : encode .init = 0x0100#16 := rfl
      rw [if_pos ⟨hns, hr⟩, asmBytes_of_lt hns, asmByte_of_lt hr, ← absorbsWords_ofNat hns, ← encode_hfin_ofNat hr, ← hinit]
      rfl
    · rw [if_neg fun h => hr h.2, asmBytes_of_lt hns, asmByte_of_not_lt hr]
  · rw [if_neg fun h => hns h.1, asmBytes_of_not_lt hns]

/-- Settles O38: the words of the bytes are written by their numbers, which the assembler does not truncate. -/
theorem pseudoInstructionsExpand : Obligations.PseudoInstructionsExpand :=
  ⟨assemble_absorbs, fun n => congrArg Except.ok (squeezelWords_literal n), assemble_hash⟩

end Machine

end Sys2Proof

/-!
The statement of spec/40_init.md: INIT (R80). Before it the refused words of a format Z row, and INIT's answer with the engine
it leaves written out.
-/

namespace Sys2Proof.Machine

/-- A word of a format Z row with an operand is refused (R64 step 3, R65). -/
theorem refused_of_strayOperand {op imm8 : Byte} (hz : op ∈ Fields.formatZ) (h : imm8 ≠ 0x00#8) : Refused (op ++ imm8) :=
  refused_of_illegal ((decode_append op imm8).trans (decodeFields_of_strayOperand hz h))

/-- INIT's answer names no item of the engine before it (R80). -/
theorem exec_init_eq_complete_reset (s : State) : exec .init s = .next (s.complete (Engine.reset, [])) := by
  rw [exec_init, effect, Engine.initialise_eq]

/-- Settles O15: from every state INIT answers with the reset engine, whose table is the identity; its operand words are a
format Z row's. -/
theorem initCommand : Obligations.InitCommand := by
  have hword : Encodes 0x0100#16 .init := encodes_of_ok (decode_encode .init)
  have hrow : (0x01#8 : Byte) ∈ Fields.formatZ := by decide
  refine ⟨hword, fun imm8 h => refused_of_strayOperand hrow h, fun s => ?_⟩
  exact ⟨s.complete (Engine.reset, []), exec_init_eq_complete_reset s, s.complete_answers _, Table.read_identity,
    rfl, rfl, rfl, rfl, rfl, rfl, exec_init_eq_complete_reset⟩

end Sys2Proof.Machine

/-!
The statements of spec/41_absorb.md: absorption (R85 to R90). Before them the words of ABSORB and ABSORBN, the entries an
absorption moves, and what a stream of absorptions leaves in `w` and `a`.
-/

namespace Sys2Proof.Machine

/-! ### The command words (R62, R63) -/

theorem encodes_absorb (b : Byte) : Encodes (0x0200#16 + b.setWidth 16) (.absorb b) := by
  rw [base_add_operand 0x0200#16 0x02#8 rfl]
  exact encodes_of_ok (decode_encode (.absorb b))

theorem encodes_absorbn (x : Nibble) : Encodes (0x0300#16 + x.setWidth 16) (.absorbn x) := by
  have hx : x.setWidth 16 = (x.setWidth 8 : Byte).setWidth 16 := by bv_omega
  rw [hx, base_add_operand 0x0300#16 0x03#8 rfl]
  exact encodes_of_ok (decode_encode (.absorbn x))

/-- An ABSORBN word whose operand is no nibble is refused (R64 step 4). -/
theorem refused_of_nibbleOutOfRange {imm8 : Byte} (h : imm8.extractLsb' 4 4 ≠ 0#4) : Refused (0x03#8 ++ imm8) :=
  refused_of_illegal ((decode_append _ imm8).trans (decodeFields_of_nibbleOutOfRange h))

/-! ### Engines that read alike outside some locations -/

theorem Engine.SameTableExcept.mono {e e' : Engine} {ps qs : List Byte} (h : e.SameTableExcept e' ps) (hsub : ps ⊆ qs) :
    e.SameTableExcept e' qs :=
  fun p hp => h p fun hm => hp (hsub hm)

theorem Engine.SameTableExcept.trans {e e' e'' : Engine} {ps qs : List Byte} (h : e.SameTableExcept e' ps)
    (h' : e'.SameTableExcept e'' qs) : e.SameTableExcept e'' (ps ++ qs) := by
  intro p hp
  rw [List.mem_append, not_or] at hp
  exact (h' p hp.2).trans (h p hp.1)

/-! ### One absorption (R85, R89) -/

/-- No location below 128 lies in the nibble window (R47). -/
theorem ne_window {a : Byte} (ha : a ≤ 127#8) (x : Nibble) : a ≠ 128#8 + x.setWidth 8 := by
  have hwindow := (window_bounds x).1
  rintro rfl
  have : (128#8 + x.setWidth 8 : Byte).toNat ≤ 127 := ha
  omega

theorem Engine.absorption_valid {e : Engine} (h : e.valid = true) (o : Option Nibble) : (e.absorption o).valid = true := by
  cases o with
  | none => exact Engine.absorbStop_valid h
  | some x => exact Engine.absorbNibble_valid h x

/-- The increment of an absorption never wraps. -/
theorem Engine.absorption_a_toNat {e : Engine} (h : e.valid = true) (o : Option Nibble) :
    (e.absorption o).a.toNat = e.shuffleIfSaturated.a.toNat + 1 := by
  have ha := (Engine.shuffleIfSaturated_valid h).2
  rw [Engine.absorption_a]
  bv_omega

/-- What ABSORBN leaves at every location: after its test, the exchange of `S[a]` and `S[128 + x]` (R85). -/
theorem Engine.absorbNibble_read {e : Engine} (h : e.valid = true) (x : Nibble) (p : Byte) :
    let e₀ := e.shuffleIfSaturated
    let q : Byte := 128#8 + x.setWidth 8
    (e.absorbNibble x).read p = if p = q then e₀.read e₀.a else if p = e₀.a then e₀.read q else e₀.read p := by
  obtain ⟨htable, -, -⟩ := (Engine.valid_iff _).mp (Engine.shuffleIfSaturated_valid h).1
  rw [Engine.absorbNibble_eq, Engine.setA_read, Engine.read_swap htable]

theorem Engine.absorbNibble_sameTableExcept {e : Engine} (h : e.valid = true) (x : Nibble) :
    e.shuffleIfSaturated.SameTableExcept (e.absorbNibble x) [e.shuffleIfSaturated.a, 128#8 + x.setWidth 8] := by
  intro p hp
  obtain ⟨hpa, hpq⟩ : p ≠ e.shuffleIfSaturated.a ∧ p ≠ 128#8 + x.setWidth 8 := by simpa using hp
  rw [Engine.absorbNibble_read h, if_neg hpq, if_neg hpa]

/-- An ABSORB neither of whose nibbles shuffles exchanges at `a` and then at `a + 1` (R87). -/
theorem Engine.absorbByte_sameTableExcept {e : Engine} (h : e.valid = true) (ha : e.a ≤ 126#8) (b : Byte) :
    e.SameTableExcept (e.absorbByte b)
      [e.a, e.a + 1#8, 128#8 + (lowNibble b).setWidth 8, 128#8 + (highNibble b).setWidth 8] := by
  have hne : e.a ≠ 128#8 := by bv_omega
  have ha₁ : (e.absorbNibble (lowNibble b)).a = e.a + 1#8 := (Engine.absorption_of_ne hne (some (lowNibble b))).2
  have hne₁ : (e.absorbNibble (lowNibble b)).a ≠ 128#8 := by rw [ha₁]; bv_omega
  have hlow := Engine.absorbNibble_sameTableExcept h (lowNibble b)
  have hhigh := Engine.absorbNibble_sameTableExcept (Engine.absorbNibble_valid h (lowNibble b)) (highNibble b)
  rw [Engine.shuffleIfSaturated_of_ne hne] at hlow
  rw [Engine.shuffleIfSaturated_of_ne hne₁, ha₁] at hhigh
  exact (hlow.trans hhigh).mono (by simp)

/-! ### A stream of absorptions (R90) -/

theorem Engine.foldl_absorption_valid {e : Engine} (h : e.valid = true) (xs : List (Option Nibble)) :
    (xs.foldl Engine.absorption e).valid = true := by
  induction xs generalizing e with
  | nil => exact h
  | cons o xs ih => exact ih (Engine.absorption_valid h o)

/-- From `a = 0`, `a` counts the absorptions since the last shuffle, which the absorption after a full 128 makes. -/
theorem Engine.foldl_absorption_a {e : Engine} (h : e.valid = true) (ha : e.a = 0#8) (xs : List (Option Nibble)) :
    (xs.foldl Engine.absorption e).a.toNat = if xs.length = 0 then 0 else (xs.length - 1) % 128 + 1 := by
  induction xs using List.reverseRecOn with
  | nil => simp [ha]
  | append_singleton xs o ih =>
    rw [List.foldl_concat, Engine.absorption_a_toNat (Engine.foldl_absorption_valid h xs), List.length_append,
      List.length_singleton, if_neg (Nat.succ_ne_zero _), Nat.add_sub_cancel]
    by_cases hsat : (xs.foldl Engine.absorption e).a = 128#8
    · rw [Engine.shuffleIfSaturated_of_eq hsat, Engine.shuffle_a]
      rw [hsat, BitVec.toNat_ofNat] at ih
      rw [BitVec.toNat_ofNat]
      split at ih <;> omega
    · rw [Engine.shuffleIfSaturated_of_ne hsat, ih]
      have hlt : (xs.foldl Engine.absorption e).a.toNat ≠ 128 := fun hn => hsat (BitVec.eq_of_toNat_eq hn)
      split at ih <;> split <;> omega

/-- An absorption meets saturation exactly when a positive multiple of 128 absorptions came before it (R90). -/
theorem Engine.foldl_absorption_saturated_iff {e : Engine} (h : e.valid = true) (ha : e.a = 0#8) (xs : List (Option Nibble)) :
    (xs.foldl Engine.absorption e).a = 128#8 ↔ 0 < xs.length ∧ xs.length % 128 = 0 := by
  have hcount := Engine.foldl_absorption_a h ha xs
  rw [← BitVec.toNat_inj, hcount, BitVec.toNat_ofNat]
  split <;> omega

/-- From `a = 0`, `w` counts the shuffles of a stream of absorptions, 6 for each. -/
theorem Engine.foldl_absorption_w {e : Engine} (h : e.valid = true) (ha : e.a = 0#8) (xs : List (Option Nibble)) :
    (xs.foldl Engine.absorption e).w = e.w + BitVec.ofNat 8 (6 * ((xs.length - 1) / 128)) := by
  induction xs using List.reverseRecOn with
  | nil => simp
  | append_singleton xs o ih =>
    have hsat := Engine.foldl_absorption_saturated_iff h ha xs
    rw [List.foldl_concat, List.length_append, List.length_singleton, Nat.add_sub_cancel]
    by_cases h128 : (xs.foldl Engine.absorption e).a = 128#8
    · have hdiv : xs.length / 128 = (xs.length - 1) / 128 + 1 := by
        have := hsat.mp h128
        omega
      rw [(Engine.absorption_of_eq h128 o).1, ih, hdiv, Nat.mul_succ, BitVec.ofNat_add, BitVec.add_assoc]
    · obtain ⟨⟨-, -, -, -, hw⟩, -⟩ := Engine.absorption_of_ne h128 o
      have hdiv : xs.length / 128 = (xs.length - 1) / 128 := by
        have := mt hsat.mpr h128
        omega
      rw [hw, ih, hdiv]

/-- From `a = 0`, up to 128 absorptions shuffle nowhere and write no register but `a`. -/
theorem Engine.foldl_absorption_sameRegisters {e : Engine} (h : e.valid = true) (ha : e.a = 0#8) {xs : List (Option Nibble)}
    (hlen : xs.length ≤ 128) : e.SameRegisters (xs.foldl Engine.absorption e) := by
  induction xs using List.reverseRecOn with
  | nil => exact ⟨rfl, rfl, rfl, rfl, rfl⟩
  | append_singleton xs o ih =>
    rw [List.length_append, List.length_singleton] at hlen
    have hne : (xs.foldl Engine.absorption e).a ≠ 128#8 := by
      rw [Ne, Engine.foldl_absorption_saturated_iff h ha]
      omega
    rw [List.foldl_concat]
    exact (ih (by omega)).trans (Engine.absorption_of_ne hne o).1

/-! ### The statements -/

/-- Settles O22: after the test `a` is below the nibble window, so the swap exchanges two different locations. -/
theorem absorbNibbleCommand : Obligations.AbsorbNibbleCommand := by
  refine ⟨encodes_absorbn, fun _ => refused_of_nibbleOutOfRange, fun s x hs => ?_⟩
  rw [← Engine.shuffleIfSaturated_eq]
  intro e q
  have ha : e.a ≤ 127#8 := (Engine.shuffleIfSaturated_valid hs).2
  have hne : e.a ≠ q := ne_window ha x
  refine ⟨_, exec_of_inv hs (.absorbn x), s.complete_answers _, by bv_omega, hne, ?_, ?_,
    Engine.absorbNibble_sameTableExcept hs x, s.engine.absorption_sameRegisters (some x),
    Engine.absorption_a_toNat hs (some x)⟩
  · exact (Engine.absorbNibble_read hs x e.a).trans ((if_neg hne).trans (if_pos rfl))
  · exact (Engine.absorbNibble_read hs x q).trans (if_pos rfl)

/-- Settles O23: the effect of ABSORB is by definition the two effects of ABSORBN, and the state between them is valid. -/
theorem absorbCommand : Obligations.AbsorbCommand := by
  refine ⟨encodes_absorb, fun s b hs => ?_⟩
  have hmid : (s.complete (effect (.absorbn (lowNibble b)) s.engine)).Inv := effect_valid hs _
  exact ⟨_, _, _, exec_of_inv hs (.absorb b), exec_of_inv hs (.absorbn (lowNibble b)),
    exec_of_inv hmid (.absorbn (highNibble b)), s.engine.absorbByte_eq b, s.complete_answers _⟩

/-- Settles O24: with `a` at most 126 neither nibble meets saturation. -/
theorem absorbFrameWithoutShuffle : Obligations.AbsorbFrameWithoutShuffle := by
  intro s b hs ha
  obtain ⟨hregs, ha₂⟩ := Engine.absorbByte_of_ne (e := s.engine) (by bv_omega) (by bv_omega) b
  exact ⟨_, exec_of_inv hs (.absorb b), s.complete_answers _, ha₂, hregs, Engine.absorbByte_sameTableExcept hs ha b⟩

/-- Settles O25: the stop is an absorption that writes `a` alone after its test. -/
theorem absorbStopCommand : Obligations.AbsorbStopCommand := by
  have hrow : (0x04#8 : Byte) ∈ Fields.formatZ := by decide
  refine ⟨encodes_of_ok (decode_encode .abstop), fun _ => refused_of_strayOperand hrow, fun s hs => ?_⟩
  rw [← Engine.shuffleIfSaturated_eq]
  intro e
  obtain ⟨-, -, hle⟩ := (Engine.valid_iff _).mp (Engine.absorption_valid hs none)
  refine ⟨_, exec_of_inv hs .abstop, s.complete_answers _, Engine.absorption_a_toNat hs none, hle,
    s.engine.absorption_sameRegisters none, fun p _ => ?_⟩
  exact (congrArg (Engine.read · p) s.engine.absorbStop_eq).trans (Engine.setA_read _ _ p)

/-- Settles O26: each part is an induction that adds one absorption at the end of the stream. -/
theorem absorptionsBetweenShuffles : Obligations.AbsorptionsBetweenShuffles := by
  intro e xs h ha
  obtain ⟨htable, -, -⟩ := (Engine.valid_iff _).mp (Engine.foldl_absorption_valid h xs)
  exact ⟨Engine.foldl_absorption_w h ha xs, Engine.foldl_absorption_a h ha xs, Engine.foldl_absorption_sameRegisters h ha,
    htable.bijective⟩

/-- Settles O27: the words are those of one ABSORB per byte, whose effects are the fold over the bytes. -/
theorem absorbSequence : Obligations.AbsorbSequence := by
  refine ⟨fun m rest s hs hr => ?_, fun e m₁ m₂ => (List.foldl_append).symm⟩
  have hwords : absorbsWords m = (m.map Instr.absorb).map encode := by simp [absorbsWords]
  rw [hwords] at hr
  obtain ⟨t, hrun, hready, -, hengine, hstatus, hdata⟩ := runs_of_encode (m.map .absorb) rest s hs hr
  simp only [List.length_map] at hrun hstatus
  rw [effects_absorb] at hengine hdata
  exact ⟨t, hrun, hengine, hready, hstatus, hdata.trans (List.append_nil _)⟩

end Sys2Proof.Machine

/-!
The statements of spec/42_shuffle.md: Whip, Crush, SHUFFLE (R95 to R100). Before them Whip as an iteration, the entries a pass
of comparisons puts in order, and the independence of a shuffle from `a`.
-/

namespace Sys2Proof.Machine

/-! ### Whip (R95) -/

/-- Whip as the iteration of Update, which leaves `w` to the one assignment after it. -/
theorem Engine.whip_eq (e : Engine) (r : Nat) : e.whip r = (Engine.update^[r] e).setW (e.w + 2#8) := by
  rw [← Engine.updates_eq_iterate]
  simp only [Engine.whip, Engine.updates_w, Config.whipStep]

theorem Engine.whip_i (e : Engine) (r : Nat) : (e.whip r).i = e.i + BitVec.ofNat 8 r * e.w :=
  Engine.updates_i r e

/-! ### One comparison of Crush (R96) -/

/-- What location `p` holds once its mirror pair is in order: the lesser of the pair's two entries in the lower half of the
table, the greater in the upper half. It does not depend on which way round the pair stands. -/
def Engine.ordered (e : Engine) (p : Byte) : Byte :=
  if p < 128#8 ↔ e.read p < e.read (255#8 - p) then e.read p else e.read (255#8 - p)

/-- The mirror of the mirror of a location is the location (R47). -/
theorem mirror_mirror (p : Byte) : 255#8 - (255#8 - p) = p := by bv_omega

/-- The lower location of a pair, in the words of R96. -/
theorem Engine.ordered_lower (e : Engine) {v : Byte} (hv : v < 128#8) :
    e.ordered v = if e.read (255#8 - v) < e.read v then e.read (255#8 - v) else e.read v := by
  simp only [Engine.ordered, hv, true_iff]
  split <;> split <;> bv_omega

/-- The upper location of a pair, in the words of R96. -/
theorem Engine.ordered_upper (e : Engine) {v : Byte} (hv : v < 128#8) :
    e.ordered (255#8 - v) = if e.read (255#8 - v) < e.read v then e.read v else e.read (255#8 - v) := by
  have hm : ¬255#8 - v < 128#8 := by bv_omega
  simp only [Engine.ordered, hm, false_iff, mirror_mirror, ite_not]

/-- The exchange of a pair: each of its two locations reads what its mirror held. -/
theorem Engine.swap_mirror_read {e : Engine} (h : e.TableOk) (v p : Byte) :
    (e.swap v (255#8 - v)).read p = if p = v ∨ p = 255#8 - v then e.read (255#8 - p) else e.read p := by
  rw [Engine.read_swap h]
  by_cases hm : p = 255#8 - v
  · rw [if_pos hm, if_pos (.inr hm), hm, mirror_mirror]
  · by_cases hv : p = v
    · rw [if_neg hm, if_pos hv, if_pos (.inl hv), hv]
    · rw [if_neg hm, if_neg hv, if_neg (not_or.mpr ⟨hv, hm⟩)]

/-- A location and its mirror belong to the same pair. -/
theorem mirror_mem_pair_iff (v p : Byte) : (255#8 - p = v ∨ 255#8 - p = 255#8 - v) ↔ (p = v ∨ p = 255#8 - v) := by
  bv_omega

/-- Exchanging the two entries of a pair exchanges the comparison too, so the pair in order is the same. -/
theorem Engine.swap_mirror_ordered {e : Engine} (h : e.TableOk) (v p : Byte) :
    (e.swap v (255#8 - v)).ordered p = e.ordered p := by
  simp only [Engine.ordered, Engine.swap_mirror_read h, mirror_mem_pair_iff, mirror_mirror]
  by_cases hpair : p = v ∨ p = 255#8 - v
  · simp only [if_pos hpair]
    split <;> split <;> bv_omega
  · simp only [if_neg hpair]

/-- A comparison leaves every pair with the same two entries. -/
theorem Engine.crushPair_ordered {e : Engine} (h : e.TableOk) (v p : Byte) : (e.crushPair v).ordered p = e.ordered p := by
  rw [Engine.crushPair_eq]
  split
  · exact Engine.swap_mirror_ordered h v p
  · rfl

/-- What a comparison leaves at every location: its own pair in order, every other entry as it was. -/
theorem Engine.crushPair_read {e : Engine} (h : e.TableOk) {v : Byte} (hv : v < 128#8) (p : Byte) :
    (e.crushPair v).read p = if p = v ∨ p = 255#8 - v then e.ordered p else e.read p := by
  by_cases hpair : p = v ∨ p = 255#8 - v
  · rw [if_pos hpair, Engine.crushPair_eq]
    rcases hpair with rfl | rfl
    · rw [e.ordered_lower hv]
      split
      · rw [Engine.swap_mirror_read h, if_pos (.inl rfl)]
      · rfl
    · rw [e.ordered_upper hv]
      split
      · rw [Engine.swap_mirror_read h, if_pos (.inr rfl), mirror_mirror]
      · rfl
  · rw [if_neg hpair, Engine.crushPair_eq]
    split
    · rw [Engine.swap_mirror_read h, if_neg hpair]
    · rfl

/-- A comparison writes only `S`. -/
theorem Engine.crushPair_eq_setS (e : Engine) (v : Byte) : e.crushPair v = e.setS (e.crushPair v).S := by
  rw [Engine.crushPair_eq]
  split <;> rfl

/-! ### A pass of comparisons (R96) -/

/-- The comparisons of the pairs `vs`, in that order. -/
def Engine.crushPass (vs : List Nat) (e : Engine) : Engine :=
  vs.foldl (fun e v => e.crushPair (BitVec.ofNat 8 v)) e

/-- Crush is the pass over 0..127. -/
theorem Engine.crush_eq_crushPass (e : Engine) : e.crush = e.crushPass (List.range 128) := rfl

theorem Engine.crushPass_cons (v : Nat) (vs : List Nat) (e : Engine) :
    e.crushPass (v :: vs) = (e.crushPair (BitVec.ofNat 8 v)).crushPass vs := rfl

theorem Engine.crushPass_tableOk {e : Engine} (h : e.TableOk) (vs : List Nat) : (e.crushPass vs).TableOk := by
  induction vs generalizing e with
  | nil => exact h
  | cons v vs ih => exact ih (Engine.crushPair_tableOk h _)

theorem Engine.crushPass_eq_setS (e : Engine) (vs : List Nat) : e.crushPass vs = e.setS (e.crushPass vs).S := by
  induction vs generalizing e with
  | nil => rfl
  | cons v vs ih =>
    calc e.crushPass (v :: vs)
      _ = (e.crushPair (BitVec.ofNat 8 v)).setS (e.crushPass (v :: vs)).S := ih _
      _ = (e.setS (e.crushPair (BitVec.ofNat 8 v)).S).setS (e.crushPass (v :: vs)).S := by rw [← Engine.crushPair_eq_setS]
      _ = e.setS (e.crushPass (v :: vs)).S := rfl

/-- What a pass leaves at every location: the pairs it visits in order, every other entry as it was. -/
theorem Engine.crushPass_read {e : Engine} (h : e.TableOk) {vs : List Nat} (hvs : ∀ v ∈ vs, v < 128) (p : Byte) :
    (e.crushPass vs).read p = if p.toNat ∈ vs ∨ (255#8 - p).toNat ∈ vs then e.ordered p else e.read p := by
  induction vs generalizing e with
  | nil => simp [Engine.crushPass]
  | cons v vs ih =>
    obtain ⟨hv, hvs⟩ := List.forall_mem_cons.mp hvs
    have hlt : (BitVec.ofNat 8 v : Byte) < 128#8 := by bv_omega
    have hpair : (p = BitVec.ofNat 8 v ∨ p = 255#8 - BitVec.ofNat 8 v) ↔ (p.toNat = v ∨ (255#8 - p).toNat = v) := by
      bv_omega
    rw [Engine.crushPass_cons, ih (Engine.crushPair_tableOk h _) hvs, Engine.crushPair_ordered h,
      Engine.crushPair_read h hlt, ← ite_or]
    simp only [hpair, List.mem_cons, or_or_or_comm, or_comm]

/-- A pass over all 128 pairs, in any order, puts every pair in order. -/
theorem Engine.crushPass_read_of_perm {e : Engine} (h : e.TableOk) {vs : List Nat} (hvs : vs.Perm (List.range 128))
    (p : Byte) : (e.crushPass vs).read p = e.ordered p := by
  have hmem : ∀ v, v ∈ vs ↔ v < 128 := fun v => hvs.mem_iff.trans List.mem_range
  have hvisit : p.toNat ∈ vs ∨ (255#8 - p).toNat ∈ vs := by
    rw [hmem, hmem]
    bv_omega
  rw [Engine.crushPass_read h (fun v => (hmem v).mp), if_pos hvisit]

/-! ### Crush (R96) -/

theorem Engine.crush_read {e : Engine} (h : e.TableOk) (p : Byte) : e.crush.read p = e.ordered p :=
  Engine.crushPass_read_of_perm h (.refl _) p

/-- Crush leaves every pair with the same two entries. -/
theorem Engine.crush_ordered {e : Engine} (h : e.TableOk) (p : Byte) : e.crush.ordered p = e.ordered p := by
  obtain ⟨-, hord⟩ := Engine.crush_induction (P := fun e' => e'.TableOk ∧ e'.ordered p = e.ordered p) ⟨h, rfl⟩
    fun e' v ⟨h', hord⟩ => ⟨Engine.crushPair_tableOk h' v, (Engine.crushPair_ordered h' v p).trans hord⟩
  exact hord

/-- Two engines that differ from one engine in the table only are equal when they read alike. -/
theorem Engine.eq_of_read {e e₁ e₂ : Engine} (h₁ : e₁.TableOk) (h₂ : e₂.TableOk) (hset₁ : e₁ = e.setS e₁.S)
    (hset₂ : e₂ = e.setS e₂.S) (hread : ∀ p, e₁.read p = e₂.read p) : e₁ = e₂ := by
  rw [hset₁, hset₂, Table.ext_of_read h₁.1 h₂.1 hread]

/-- The order in which the pairs are visited is immaterial. -/
theorem Engine.crushPass_eq_crush {e : Engine} (h : e.TableOk) {vs : List Nat} (hvs : vs.Perm (List.range 128)) :
    e.crushPass vs = e.crush :=
  Engine.eq_of_read (Engine.crushPass_tableOk h vs) (Engine.crush_tableOk h) (e.crushPass_eq_setS vs)
    (e.crushPass_eq_setS _) fun p => (Engine.crushPass_read_of_perm h hvs p).trans (Engine.crush_read h p).symm

/-- Crush changes nothing where every pair is in order already. -/
theorem Engine.crush_of_ordered {e : Engine} (h : e.TableOk) (hord : ∀ p, e.ordered p = e.read p) : e.crush = e :=
  Engine.eq_of_read (Engine.crush_tableOk h) h (e.crushPass_eq_setS _) rfl fun p => (Engine.crush_read h p).trans (hord p)

theorem Engine.crush_crush {e : Engine} (h : e.TableOk) : e.crush.crush = e.crush :=
  Engine.crush_of_ordered (Engine.crush_tableOk h) fun p => (Engine.crush_ordered h p).trans (Engine.crush_read h p).symm

/-- On the identity table every pair is in order: `v < 255 - v` for the lower `v`. -/
theorem Engine.crush_reset : Engine.reset.crush = Engine.reset := by
  have hread : ∀ p : Byte, Engine.reset.read p = p := Table.read_identity
  obtain ⟨htable, -, -⟩ := (Engine.valid_iff _).mp Engine.reset_valid
  refine Engine.crush_of_ordered htable fun p => ?_
  have hlower : p < 128#8 ↔ p < 255#8 - p := by bv_omega
  simp only [Engine.ordered, hread, if_pos hlower]

/-- After Crush the two entries of a pair are in order, strictly since the table is a permutation. -/
theorem Engine.crush_read_lt {e : Engine} (h : e.TableOk) {v : Byte} (hv : v < 128#8) :
    e.crush.read v < e.crush.read (255#8 - v) := by
  have hne : e.read v ≠ e.read (255#8 - v) := fun heq => by
    have hpair : v = 255#8 - v := h.bijective.injective heq
    bv_omega
  rw [Engine.crush_read h, Engine.crush_read h, e.ordered_lower hv, e.ordered_upper hv]
  split <;> bv_omega

/-- After Crush a pair holds its two entries exchanged or as they were. -/
theorem Engine.crush_pair {e : Engine} (h : e.TableOk) {v : Byte} (hv : v < 128#8) :
    if e.read (255#8 - v) < e.read v then e.crush.read v = e.read (255#8 - v) ∧ e.crush.read (255#8 - v) = e.read v
    else e.crush.read v = e.read v ∧ e.crush.read (255#8 - v) = e.read (255#8 - v) := by
  rw [Engine.crush_read h, Engine.crush_read h, e.ordered_lower hv, e.ordered_upper hv]
  split <;> exact ⟨rfl, rfl⟩

/-! ### A shuffle does not read `a` (R97) -/

theorem Engine.setA_setA (e : Engine) (u v : Byte) : (e.setA u).setA v = e.setA v := (rfl)

theorem Engine.whip_setA (e : Engine) (v : Byte) (r : Nat) : (e.setA v).whip r = (e.whip r).setA v := by
  have hcomm : Function.Commute Engine.update (Engine.setA · v) := fun _ => rfl
  have hupdates : Engine.update^[r] (e.setA v) = (Engine.update^[r] e).setA v := hcomm.iterate_left r e
  rw [Engine.whip_eq, Engine.whip_eq, hupdates]
  rfl

theorem Engine.crushPair_setA (e : Engine) (v p : Byte) : (e.setA v).crushPair p = (e.crushPair p).setA v := by
  simp only [Engine.crushPair_eq, Engine.setA_read]
  split <;> rfl

theorem Engine.crush_setA (e : Engine) (v : Byte) : (e.setA v).crush = e.crush.setA v :=
  List.foldl_hom (Engine.setA · v) fun e _ => e.crushPair_setA v _

/-- The `a` before a shuffle passes through the whips and crushes to the last assignment, which overwrites it. -/
theorem Engine.shuffle_setA (e : Engine) (v : Byte) : (e.setA v).shuffle = e.shuffle := by
  simp only [Engine.shuffle_eq, Engine.whip_setA, Engine.crush_setA, Engine.setA_setA]

/-! ### Many shuffles, and the commands that may shuffle and emit nothing (R100) -/

/-- `n` shuffles add `6n` to `w`. -/
theorem Engine.iterate_shuffle_w (n : Nat) (e : Engine) : (Engine.shuffle^[n] e).w = e.w + BitVec.ofNat 8 (6 * n) := by
  induction n with
  | zero => simp
  | succ n ih =>
    rw [Function.iterate_succ_apply', Engine.shuffle_w_add_six, ih, Nat.mul_succ, BitVec.ofNat_add, BitVec.add_assoc]

theorem Engine.absorption_i (e : Engine) (o : Option Nibble) : (e.absorption o).i = e.i := by
  obtain ⟨hi, -, -, -, -⟩ := e.absorption_sameRegisters o
  rw [hi, Engine.shuffleIfSaturated_eq]
  split
  · exact e.shuffle_i
  · rfl

theorem Engine.absorbByte_i (e : Engine) (b : Byte) : (e.absorbByte b).i = e.i := by
  rw [Engine.absorbByte_eq_absorptions, Engine.absorption_i, Engine.absorption_i]

/-! ### The statements -/

/-- Settles O18: Whip is the iteration of Update and the one assignment to `w`. -/
theorem whipProcedure : Obligations.WhipProcedure := by
  intro e r
  refine ⟨?_, e.whip_i r, ?_, ?_, e.whip_w r, e.whip_z r, e.whip_a r⟩
  all_goals rw [Engine.whip_eq]; rfl

/-- Settles O19: Crush leaves at every location what its pair in order has there, and so does a pass in any other order. -/
theorem crushProcedure : Obligations.CrushProcedure := by
  refine ⟨fun e he => ?_, Engine.crush_reset⟩
  obtain ⟨htable, -, -⟩ := (Engine.valid_iff e).mp he
  exact ⟨fun v hv => ⟨Engine.crush_read_lt htable hv, Engine.crush_pair htable hv⟩,
    ⟨e.crush_i, e.crush_j, e.crush_k, e.crush_z, e.crush_w⟩, e.crush_a, Engine.crush_crush htable,
    fun vs hvs => Engine.crushPass_eq_crush htable hvs⟩

/-- Settles O20: the effect of SHUFFLE is Shuffle, in which the last assignment alone touches `a`. -/
theorem shuffleCommand : Obligations.ShuffleCommand := by
  have hrow : (0x05#8 : Byte) ∈ Fields.formatZ := by decide
  refine ⟨encodes_of_ok (decode_encode .shuffle), fun _ => refused_of_strayOperand hrow, fun s hs => ?_⟩
  exact ⟨_, exec_of_inv hs .shuffle, s.complete_answers _, s.engine.shuffle_eq, s.engine.shuffle_w_add_six,
    s.engine.shuffle_z, s.engine.shuffle_a, s.engine.shuffle_setA⟩

/-- Settles O21: 128 shuffles add 768 to `w`, three times 256; an absorption writes `i` only through a shuffle, which leaves
it. -/
theorem shuffleProperties : Obligations.ShuffleProperties := by
  refine ⟨fun e he => ?_, fun s i hs hi => ?_⟩
  · obtain ⟨htable, hodd, -⟩ := (Engine.valid_iff _).mp (Engine.shuffle_valid he)
    have hcycle : (Engine.shuffle^[128] e).w = e.w := (Engine.iterate_shuffle_w 128 e).trans (BitVec.add_zero e.w)
    exact ⟨e.shuffle_i, e.shuffle_w_add_six, hodd, e.shuffle_z, e.shuffle_a, htable.bijective,
      fun n => Engine.iterate_shuffle_w n e, hcycle⟩
  · refine ⟨_, exec_of_inv hs i, ?_⟩
    obtain rfl | rfl | ⟨x, rfl⟩ | ⟨b, rfl⟩ := hi
    · exact ⟨s.engine.shuffle_i, s.complete_answers _⟩
    · exact ⟨s.engine.absorption_i none, s.complete_answers _⟩
    · exact ⟨s.engine.absorption_i (some x), s.complete_answers _⟩
    · exact ⟨s.engine.absorbByte_i b, s.complete_answers _⟩

end Sys2Proof.Machine

/-!
The statements of spec/43_extract.md: DRIP and SQUEEZE (R105 to R108). Before them the bytes of an extraction as an iteration
of the update and output pair, repeated drips, and squeezes one after the other.
-/

namespace Sys2Proof.Machine

/-! ### The update and output pair (R106) -/

/-- What every extracted byte takes after the test: one update, one output; the byte is the new `z`. -/
def Engine.updateOutput (e : Engine) : Engine := e.update.output

theorem Engine.emitBytes_engine (n : Nat) (e : Engine) : (e.emitBytes n).1 = Engine.updateOutput^[n] e := by
  induction n generalizing e with
  | zero => rfl
  | succ n ih => exact ih e.updateOutput

/-- The byte at index `n` is the `z` after `n + 1` pairs. -/
theorem Engine.emitBytes_bytes (r : Nat) (e : Engine) :
    (e.emitBytes r).2 = (List.range r).map fun n => (Engine.updateOutput^[n + 1] e).z := by
  induction r generalizing e with
  | zero => rfl
  | succ r ih =>
    have hrest : (e.update.output.emitBytes r).2 = (List.range r).map fun n => (Engine.updateOutput^[n + 2] e).z :=
      ih e.updateOutput
    rw [Engine.emitBytes_succ, hrest, List.range_succ_eq_map, List.map_cons, List.map_map]
    rfl

/-! ### Repeated drips (R107) -/

theorem Engine.drip_eq (e : Engine) : e.drip = e.shuffleIfUnflushed.updateOutput := rfl

theorem Engine.drip_of_a_zero {e : Engine} (h : e.a = 0#8) : e.drip = e.updateOutput := by
  rw [Engine.drip_eq, Engine.shuffleIfUnflushed_of_a_zero h]

/-- Only the first of several drips can shuffle: each later one finds the `a = 0` the drip before it left. -/
theorem Engine.iterate_drip_succ (n : Nat) (e : Engine) :
    Engine.drip^[n + 1] e = Engine.updateOutput^[n + 1] e.shuffleIfUnflushed := by
  induction n with
  | zero => rfl
  | succ n ih =>
    have ha : (Engine.drip^[n + 1] e).a = 0#8 := by rw [Function.iterate_succ_apply', Engine.drip_a]
    rw [Function.iterate_succ_apply' Engine.drip, Engine.drip_of_a_zero ha, ih,
      Function.iterate_succ_apply' Engine.updateOutput (n + 1)]

/-! ### Squeezes (R106 to R108) -/

theorem Engine.squeeze_engine (e : Engine) (r : Nat) :
    (e.squeeze r).1 = Engine.updateOutput^[r] e.shuffleIfUnflushed := Engine.emitBytes_engine r _

theorem Engine.squeeze_bytes (e : Engine) (r : Nat) :
    (e.squeeze r).2 = (List.range r).map fun n => (Engine.updateOutput^[n + 1] e.shuffleIfUnflushed).z :=
  Engine.emitBytes_bytes r _

/-- The second of two squeezes finds `a = 0`, so its pairs follow on those of the first (R107). -/
theorem Engine.squeeze_add (e : Engine) (r₁ r₂ : Nat) :
    e.squeeze (r₁ + r₂) = (((e.squeeze r₁).1.squeeze r₂).1, (e.squeeze r₁).2 ++ ((e.squeeze r₁).1.squeeze r₂).2) := by
  have hsecond : (e.squeeze r₁).1.squeeze r₂ = (e.squeeze r₁).1.emitBytes r₂ := by
    rw [Engine.squeeze, Engine.shuffleIfUnflushed_of_a_zero (Engine.squeeze_a e r₁)]
  rw [hsecond]
  exact Engine.emitBytes_add r₁ r₂ e.shuffleIfUnflushed

/-! ### The commands -/

theorem encodes_squeeze (r : Byte) : Encodes (0x0700#16 + r.setWidth 16) (.squeeze r) := by
  rw [base_add_operand 0x0700#16 0x07#8 rfl]
  exact encodes_of_ok (decode_encode (.squeeze r))

/-- The test of an extraction as a command: SHUFFLE if `a > 0`, and no command otherwise (R105). -/
theorem exists_exec_shuffle_if {s : State} (hs : s.Inv) :
    ∃ t, (if 0#8 < s.engine.a then exec .shuffle s = .next t else t = s) ∧ t.Inv ∧
      t.engine = s.engine.shuffleIfUnflushed := by
  rw [Engine.shuffleIfUnflushed_eq]
  split
  · exact ⟨_, exec_of_inv hs .shuffle, effect_valid hs .shuffle, rfl⟩
  · exact ⟨s, rfl, hs, rfl⟩

/-- Settles O28: the effect of DRIP is the effects of the three commands in turn, each from a valid state. -/
theorem dripCommand : Obligations.DripCommand := by
  have hrow : (0x06#8 : Byte) ∈ Fields.formatZ := by decide
  refine ⟨encodes_of_ok (decode_encode .drip), fun _ => refused_of_strayOperand hrow, fun s hs => ?_⟩
  obtain ⟨t₀, htest, h₀, hengine⟩ := exists_exec_shuffle_if hs
  have h₁ : (t₀.complete (effect .update t₀.engine)).Inv := effect_valid h₀ .update
  have hdrip : s.engine.drip = t₀.engine.update.output := by rw [hengine, Engine.drip]
  exact ⟨_, t₀, _, _, exec_of_inv hs .drip, htest, exec_of_inv h₀ .update, exec_of_inv h₁ .output, hdrip,
    s.complete_answers _, s.engine.drip_a⟩

/-- Settles O29: the effect of SQUEEZE is the iteration of the pair after the test. -/
theorem squeezeCommand : Obligations.SqueezeCommand := by
  refine ⟨encodes_squeeze, fun s r hs => ?_⟩
  rw [← Engine.shuffleIfUnflushed_eq]
  intro e pair
  have hbytes : (s.engine.squeeze r.toNat).2 = (List.range r.toNat).map fun n => (pair^[n + 1] e).z :=
    s.engine.squeeze_bytes r.toNat
  refine ⟨_, exec_of_inv hs (.squeeze r), s.engine.squeeze_engine r.toNat, ?_, s.engine.squeeze_a r.toNat⟩
  rw [← hbytes]
  exact s.complete_answers _

/-- Settles O30: drips and squeezes are both iterations of the pair, and a sum of operands within a byte does not wrap. -/
theorem squeezeIsDripsAndSplits : Obligations.SqueezeIsDripsAndSplits := by
  refine ⟨fun e => ⟨rfl, e.shuffleIfUnflushed_eq⟩, fun e r hr => ?_, fun e r₁ r₂ => ?_, fun s r₁ r₂ hs hsum => ?_⟩
  · obtain ⟨n, rfl⟩ := Nat.exists_eq_add_of_le' hr
    simp only [Engine.iterate_drip_succ]
    exact ⟨e.squeeze_engine (n + 1), e.squeeze_bytes (n + 1)⟩
  · rw [e.squeeze_add r₁ r₂]
    exact ⟨rfl, rfl⟩
  · have hcount : (r₁ + r₂).toNat = r₁.toNat + r₂.toNat := BitVec.toNat_add_of_lt (by omega)
    have heffect : effect (.squeeze (r₁ + r₂)) s.engine = s.engine.squeeze (r₁.toNat + r₂.toNat) :=
      congrArg s.engine.squeeze hcount
    have h₁ : (s.complete (effect (.squeeze r₁) s.engine)).Inv := effect_valid hs (.squeeze r₁)
    refine ⟨_, _, _, exec_of_inv hs (.squeeze r₁), exec_of_inv h₁ (.squeeze r₂), exec_of_inv hs (.squeeze (r₁ + r₂)), ?_⟩
    rw [heffect, Engine.squeeze_add]
    exact ⟨rfl, List.append_assoc ..⟩

/-- Settles O31: with no pairs to do SQUEEZE 0 is the test alone; after the test `a` is 0 and no pair writes it. -/
theorem squeezeZero : Obligations.SqueezeZero := by
  intro s hs
  refine ⟨⟨_, exec_of_inv hs (.squeeze 0#8), s.complete_answers _, ?_⟩,
    fun r => ⟨_, exec_of_inv hs (.squeeze r), s.engine.squeeze_a r.toNat⟩, _, exec_of_inv hs .drip, s.engine.drip_a⟩
  have hengine : (s.complete (effect (.squeeze 0#8) s.engine)).engine = s.engine.shuffleIfUnflushed := rfl
  rw [hengine]
  split
  case isTrue h => exact Engine.shuffleIfUnflushed_of_a_zero h
  case isFalse h => rw [Engine.shuffleIfUnflushed_eq, if_pos (by bv_omega)]

end Sys2Proof.Machine

/-!
The statements of spec/44_primitives.md: UPDATE and OUTPUT (R113 to R116). Before them what the swap of an update leaves at
every location, and that its `i` moves.
-/

namespace Sys2Proof.Machine

/-! ### The exchange of an update (R13, R113) -/

theorem Engine.swap_read_right {e : Engine} (h : e.TableOk) (p q : Byte) : (e.swap p q).read q = e.read p := by
  rw [Engine.read_swap h, if_pos rfl]

/-- Also where the two locations are one, since the swap then changes nothing. -/
theorem Engine.swap_read_left {e : Engine} (h : e.TableOk) (p q : Byte) : (e.swap p q).read p = e.read q := by
  rw [Engine.read_swap h, if_pos rfl]
  split
  case isTrue hpq => rw [hpq]
  case isFalse => rfl

theorem Engine.swap_sameTableExcept {e : Engine} (h : e.TableOk) (p q : Byte) : e.SameTableExcept (e.swap p q) [p, q] := by
  intro x hx
  obtain ⟨hxp, hxq⟩ : x ≠ p ∧ x ≠ q := by simpa using hx
  rw [Engine.read_swap h, if_neg hxq, if_neg hxp]

/-- An update writes the table by its swap alone, at the new `i` and the new `j`. -/
theorem Engine.update_read (e : Engine) (p : Byte) : e.update.read p = (e.swap e.update.i e.update.j).read p :=
  congrArg (Table.read · p) e.update_S

/-- An odd step is not 0, so `i` moves (R114). -/
theorem Engine.update_i_ne {e : Engine} (hodd : e.w.getLsbD 0 = true) : e.update.i ≠ e.i := by
  rw [Engine.update_i, Ne, BitVec.add_right_eq_self]
  intro hw
  rw [hw] at hodd
  exact absurd hodd (by decide)

/-! ### The statements -/

/-- Settles O16: the new registers are the assignments of Update in order, and the swap of its last line is at the new `i` and
the new `j` on the table of before. -/
theorem updateCommand : Obligations.UpdateCommand := by
  have hrow : (0x08#8 : Byte) ∈ Fields.formatZ := by decide
  refine ⟨encodes_of_ok (decode_encode .update), fun _ => refused_of_strayOperand hrow, fun s hs => ?_⟩
  obtain ⟨htable, hodd, -⟩ := (Engine.valid_iff _).mp hs
  refine ⟨_, exec_of_inv hs .update, s.complete_answers _, s.engine.update_i, s.engine.update_j, s.engine.update_k,
    ?_, ?_, fun p hp => ?_, s.engine.update_z, s.engine.update_w, s.engine.update_a, Engine.update_i_ne hodd⟩
  · exact (s.engine.update_read _).trans (Engine.swap_read_left htable _ _)
  · exact (s.engine.update_read _).trans (Engine.swap_read_right htable _ _)
  · exact (s.engine.update_read p).trans (Engine.swap_sameTableExcept htable _ _ p hp)

/-- Settles O17: Output assigns to `z` alone, so every location reads as before. -/
theorem outputCommand : Obligations.OutputCommand := by
  have hrow : (0x09#8 : Byte) ∈ Fields.formatZ := by decide
  refine ⟨encodes_of_ok (decode_encode .output), fun _ => refused_of_strayOperand hrow, fun s hs => ?_⟩
  exact ⟨_, exec_of_inv hs .output, s.complete_answers _, s.engine.output_z,
    fun p _ => congrArg (Table.read · p) s.engine.output_S, s.engine.output_i, s.engine.output_j, s.engine.output_k,
    s.engine.output_w, s.engine.output_a⟩

end Sys2Proof.Machine

/-!
The statements of spec/45_hash.md: HFIN and the function Hash (R121 to R125). Before them the effects of the two forms of a
hash's tail, and the run of a hash's words from the reset engine and from any state.
-/

namespace Sys2Proof.Machine

/-! ### HFIN and its building blocks (R122) -/

theorem encodes_hfin (r : Byte) : Encodes (0x0A00#16 + r.setWidth 16) (.hfin r) := by
  rw [base_add_operand 0x0A00#16 0x0A#8 rfl]
  exact encodes_of_ok (decode_encode (.hfin r))

theorem effects_hfin (r : Byte) (e : Engine) : effects [.hfin r] e = e.hashTail r := by
  simp [effects, effect]

/-- The building blocks of HFIN have its effect: the first two emit nothing. -/
theorem effects_abstop_absorb_squeeze (r : Byte) (e : Engine) :
    effects [.abstop, .absorb r, .squeeze r] e = e.hashTail r := by
  simp [effects, effect, Engine.hashTail]

theorem Engine.hashTail_length (e : Engine) (r : Byte) : (e.hashTail r).2.length = r.toNat := effect_length e (.hfin r)

/-! ### The function Hash (R121, R125) -/

/-- Hash begins with INIT, which reads no state, so no item of the engine before is in it. -/
theorem Engine.hash_eq (e : Engine) (m : List Byte) (r : Byte) : e.hash m r = (Engine.reset.absorbBytes m).hashTail r := by
  rw [Engine.hash, Engine.initialise_eq]

theorem Engine.hash_length (e : Engine) (m : List Byte) (r : Byte) : (e.hash m r).2.length = r.toNat :=
  Engine.hashTail_length _ r

/-! ### The command sequence of a hash (R74, R123) -/

theorem absorbsWords_eq (m : List Byte) : absorbsWords m = (m.map Instr.absorb).map encode := by simp [absorbsWords]

/-- The bytes of a message absorbed, then the commands `is`: only `is` can emit. -/
theorem effects_absorb_append (m : List Byte) (is : List Instr) (e : Engine) :
    effects (m.map .absorb ++ is) e = effects is (e.absorbBytes m) := by
  rw [effects_append, effects_absorb, List.nil_append]

/-- INIT at the head of the channel, from any state: the reset engine, one status OK, and the words behind it (R80). -/
theorem step_of_init {s : State} {rest : List Word} (hr : s.Ready (encode .init :: rest)) :
    step s = .next ((s.setCommandIn rest).complete (Engine.reset, [])) :=
  (step_of_word hr).trans ((runWord_of_ok (decode_encode .init) _).trans (exec_init_eq_complete_reset _))

section Hash

variable {tail : List Instr} {r : Byte} (htail : ∀ e, effects tail e = e.hashTail r)
include htail

/-- The words of the message bytes and of a tail with HFIN's effect, run from the reset engine, give Hash (R123). -/
theorem runs_of_absorb_tail (m : List Byte) (rest : List Word) {s : State} (hs : s.engine = Engine.reset)
    (hr : s.Ready (absorbsWords m ++ tail.map encode ++ rest)) :
    ∃ t, runs (m.length + tail.length) s = .next t ∧ t.engine = (s.engine.hash m r).1 ∧
      t.dataOut = s.dataOut ++ (s.engine.hash m r).2 ∧
      t.statusOut = s.statusOut ++ List.replicate (m.length + tail.length) .ok ∧ t.Ready rest := by
  have hinv : s.Inv := by
    rw [State.Inv, hs]
    exact Engine.reset_valid
  have heff : effects (m.map .absorb ++ tail) s.engine = s.engine.hash m r := by
    rw [effects_absorb_append, htail, Engine.hash_eq, hs]
  rw [absorbsWords_eq, ← List.map_append] at hr
  obtain ⟨t, hrun, hready, -, hengine, hstatus, hdata⟩ := runs_of_encode _ rest s hinv hr
  rw [heff] at hengine hdata
  simp only [List.length_map, List.length_append] at hrun hstatus
  exact ⟨t, hrun, hengine, hdata, hstatus, hready⟩

/-- The same behind INIT from any state, since Hash does not depend on the engine before. -/
theorem runs_of_init_absorb_tail (m : List Byte) (rest : List Word) {s : State}
    (hr : s.Ready (encode .init :: (absorbsWords m ++ tail.map encode ++ rest))) :
    ∃ t, runs (m.length + tail.length + 1) s = .next t ∧ t.engine = (s.engine.hash m r).1 ∧
      t.dataOut = s.dataOut ++ (s.engine.hash m r).2 ∧
      t.statusOut = s.statusOut ++ List.replicate (m.length + tail.length + 1) .ok ∧ t.Ready rest := by
  have hinit := step_of_init hr
  obtain ⟨hreset, -⟩ := hr
  obtain ⟨hstatus₁, hdata₁, hcmds₁, hreset₁⟩ :=
    (s.setCommandIn (absorbsWords m ++ tail.map encode ++ rest)).complete_answers (Engine.reset, [])
  obtain ⟨t, hrun, hengine, hdata, hstatus, hready⟩ :=
    runs_of_absorb_tail htail m rest rfl ⟨hreset₁.trans hreset, hcmds₁⟩
  rw [Engine.hash_eq _ m r, ← Engine.hash_eq s.engine] at hengine hdata
  refine ⟨t, (core_run_succ _ hinit).trans hrun, hengine, ?_, ?_, hready⟩
  · rw [hdata, hdata₁, List.append_nil]
    rfl
  · rw [hstatus, hstatus₁, List.append_assoc, List.replicate_succ]
    rfl

end Hash

/-! ### The statements -/

/-- Settles O33: the effect of HFIN is the effects of its building blocks in turn, each from a valid state. -/
theorem hashTailCommand : Obligations.HashTailCommand := by
  refine ⟨encodes_hfin, fun s r hs => ?_⟩
  have h₁ : (s.complete (effect .abstop s.engine)).Inv := effect_valid hs .abstop
  have h₂ : ((s.complete (effect .abstop s.engine)).complete (effect (.absorb r) s.engine.absorbStop)).Inv :=
    effect_valid h₁ (.absorb r)
  refine ⟨_, _, _, _, _, exec_of_inv hs (.hfin r), exec_of_inv hs .abstop, exec_of_inv h₁ (.absorb r),
    exec_of_inv h₂ (.squeeze r), rfl, ?_, s.complete_answers _, s.engine.hashTail_length r, s.engine.hashTail_a r⟩
  simp [effect, Engine.hashTail]

/-- Settles O34: Hash is its value from the reset engine, and its bytes are those of its tail. -/
theorem hashIsPureAndExact : Obligations.HashIsPureAndExact :=
  fun e e' m r => ⟨(e.hash_eq m r).trans (e'.hash_eq m r).symm, e.hash_length m r⟩

/-- Settles O35: HFIN and its building blocks are both tails with HFIN's effect, and INIT from any state leaves the reset engine. -/
theorem hashCommandSequence : Obligations.HashCommandSequence := by
  refine fun m r rest s => ⟨fun hr => ?_, fun hr => ?_, fun hreset hr => ?_⟩
  · exact runs_of_init_absorb_tail (effects_hfin r) m rest hr
  · obtain ⟨t, hrun, hengine, hdata, -, hready⟩ :=
      runs_of_init_absorb_tail (effects_abstop_absorb_squeeze r) m rest hr
    exact ⟨t, hrun, hengine, hdata, hready⟩
  · obtain ⟨t, hrun, hengine, hdata, -, hready⟩ := runs_of_absorb_tail (effects_hfin r) m rest hreset hr
    exact ⟨t, hrun, hengine, hdata, hready⟩

end Sys2Proof.Machine

/-!
The statements of spec/60_exceptions.md: legal commands complete and runs go on (R130), the one fault and its response (R131),
and what follows it (R132). Before them the step on a word that the decoder refuses, and that a valid state has a step.
-/

namespace Sys2Proof.Machine

/-- With an ill-formed word the oldest on the channel, the step consumes it and raises the fault (R131). -/
theorem step_of_not_wellFormed {s : State} {cmd : Word} {rest : List Word} (hr : s.Ready (cmd :: rest))
    (hill : (Fields.ofWord cmd).wellFormed = false) : step s = .next (s.setCommandIn rest).raiseIllegal :=
  (step_of_word hr).trans (refused_of_not_wellFormed hill _)

/-- A valid state has a next state, whatever stands on its interface (R130). -/
theorem State.Inv.safe {s : State} (hs : s.Inv) : s.Safe := by
  cases hreset : s.resetIn with
  | true => exact ⟨_, step_of_reset hreset⟩
  | false =>
    cases hcmds : s.commandIn with
    | nil => exact ⟨s, step_of_idle ⟨hreset, hcmds⟩⟩
    | cons cmd rest =>
      have hs' : (s.setCommandIn rest).Inv := hs
      obtain ⟨t, -, hrun, -⟩ := runWord_answers hs' cmd
      exact ⟨t, (step_of_word ⟨hreset, hcmds⟩).trans hrun⟩

/-! ### The statements -/

/-- Settles O41, by induction on the length of the run: a valid state has a step, and the step keeps it valid. -/
theorem everyRunGoesOn : Obligations.EveryRunGoesOn := by
  intro s hs n
  induction n generalizing s with
  | zero => exact ⟨s, rfl, hs⟩
  | succ n ih =>
    obtain ⟨u, hstep⟩ := hs.safe
    obtain ⟨t, hruns, ht⟩ := ih u (step_inv hs hstep)
    exact ⟨t, (core_run_succ n hstep).trans hruns, ht⟩

/-- Settles O7: a refused word leaves its response and nothing else, and whatever a command answers is its completion. -/
theorem illegalCommandResponse : Obligations.IllegalCommandResponse := by
  refine ⟨rfl, rfl, fun s cmd rest hr hill => ?_, fun s t i hexec => ?_⟩
  · exact ⟨_, step_of_not_wellFormed hr hill, rfl, (s.setCommandIn rest).raiseIllegal_answers⟩
  · rw [exec_next hexec, State.complete_statusOut]

/-- Settles O8: after the refused word the engine is ready with the rest of the channel. -/
theorem faultIsNotSticky : Obligations.FaultIsNotSticky := by
  intro s bad cmd rest i hr hill hd
  have hready : (s.setCommandIn (cmd :: rest)).raiseIllegal.Ready (cmd :: rest) := ⟨hr.1, rfl⟩
  exact ⟨_, step_of_not_wellFormed hr hill, rfl, stepRunsTheDecodedCommand _ _ _ _ hready hd⟩

/-- Settles O42: in a valid state a command completes with its effect. -/
theorem legalCommandsComplete : Obligations.LegalCommandsComplete :=
  fun s i hs => ⟨_, _, exec_of_inv hs i, s.complete_answers _, effect_length _ i, effect_valid hs i⟩

end Sys2Proof.Machine

/-!
The statement on the work of a hash (spec/70_reset_and_hazards.md, R162). Before it the absorptions of a hash as one stream, to
which the counts of R90 apply.
-/

namespace Sys2Proof.Machine

/-! ### The absorptions of a hash (R87, R88, R121, R122) -/

/-- The absorptions of a byte sequence: two nibbles for each byte, low before high (R87, R88). -/
def bytesAbsorptions (m : List Byte) : List (Option Nibble) := m.flatMap fun b => (nibblesOf b).map some

/-- The absorptions of a hash: the message, the stop, the byte `r` (R121, R122). -/
def hashAbsorptions (m : List Byte) (r : Byte) : List (Option Nibble) :=
  bytesAbsorptions m ++ none :: bytesAbsorptions [r]

theorem bytesAbsorptions_length (m : List Byte) : (bytesAbsorptions m).length = 2 * m.length := by
  simp [bytesAbsorptions, nibblesOf, Nat.mul_comm]

theorem hashAbsorptions_length (m : List Byte) (r : Byte) : (hashAbsorptions m r).length = 2 * m.length + 3 := by
  simp [hashAbsorptions, bytesAbsorptions_length]

theorem Engine.absorbBytes_eq_foldl_absorption (m : List Byte) (e : Engine) :
    e.absorbBytes m = (bytesAbsorptions m).foldl Engine.absorption e := by
  rw [bytesAbsorptions, List.foldl_flatMap]
  rfl

/-- A hash is its stream of absorptions from the reset engine, then the squeeze. -/
theorem Engine.hash_eq_squeeze (e : Engine) (m : List Byte) (r : Byte) :
    e.hash m r = ((hashAbsorptions m r).foldl Engine.absorption Engine.reset).squeeze r.toNat := by
  rw [Engine.hash_eq, Engine.absorbBytes_eq_foldl_absorption, hashAbsorptions, List.foldl_append]
  rfl

/-! ### The statement -/

/-- Settles O36: the stream of `2n + 3` absorptions adds 6 to `w` for each of its shuffles, and its end has `a` positive, so the
squeeze shuffles once more. -/
theorem hashShuffleCount : Obligations.HashShuffleCount := by
  intro e m r
  have hw := Engine.foldl_absorption_w Engine.reset_valid rfl (hashAbsorptions m r)
  have ha := Engine.foldl_absorption_a Engine.reset_valid rfl (hashAbsorptions m r)
  rw [hashAbsorptions_length] at hw ha
  have hpos : 0#8 < ((hashAbsorptions m r).foldl Engine.absorption Engine.reset).a := by
    rw [BitVec.lt_def, ha, if_neg (Nat.succ_ne_zero _)]
    exact Nat.succ_pos _
  rw [Engine.hash_eq_squeeze, Engine.squeeze_w, if_pos hpos, hw, Nat.mul_succ, ← Nat.add_assoc, BitVec.ofNat_add,
    BitVec.ofNat_add]
  exact ⟨rfl, Engine.squeeze_a _ _⟩

end Sys2Proof.Machine

/-!
The statements on reset, on the idle step and on states outside the invariants (spec/70_reset_and_hazards.md section 1,
spec/93_implementation_defined.md U8).
-/

namespace Sys2Proof.Machine

/-- Outside the invariants a command that is performed is refused, whatever its effect (U8, log entry 6). -/
theorem State.perform_of_not_inv {s : State} (h : ¬ s.Inv) (f : Engine → Engine × List Byte) :
    s.perform f = .refused .outsideInvariants := if_neg h

/-- Settles O13: a step with reset asserted takes the reset, which writes the engine and the reset input alone. -/
theorem resetEvent : Obligations.ResetEvent :=
  fun s hreset => ⟨s.takeReset, step_of_reset hreset, s.takeReset_engine, s.takeReset_commandIn, s.takeReset_statusOut,
    s.takeReset_dataOut, s.takeReset_resetIn⟩

/-- Settles O14: it is the idle case of a step. -/
theorem idleStepChangesNothing : Obligations.IdleStepChangesNothing := fun _ hidle => step_of_idle hidle

/-- Settles O44: every meaning but INIT's is performed, and so needs the invariants. -/
theorem noMeaningOutsideInvariants : Obligations.NoMeaningOutsideInvariants :=
  fun s i hs hi => (exec_eq_perform hi s).trans (State.perform_of_not_inv hs (effect i))

end Sys2Proof.Machine
